-- ==== Sys2Proof/Word.lean ====
section
/-! DEFINITION. Words and bytes of the BPU (00_scope.md R7, R9, R10; 20_memory.md R79). -/

namespace Sys2Proof

/-- A value, a packed word or a CSR: 32 bits, unsigned, bit 0 the least significant (R7 `WORD`, R9, R10). -/
abbrev Word := BitVec 32

/-- One byte of a word, as a platform bus sees it (R79). -/
abbrev Byte := BitVec 8

end Sys2Proof
end

