-- ==== Sys2Proof/Syntax.lean ====
section
/-! DEFINITION. The BPU's commands: one constructor per row of spec/opcode_table.json (30_encoding.md R112). -/

namespace Sys2Proof

/-- A command. `b` is the width that the field BITS carries, an unsigned number (R113); the other operands are
in the CSRs (R114). `b` is a number, not a bit field: the machine compares and multiplies it on naturals
(R10, R141). Which `b` fits the field is `Instr.wellFormed`; which `b` is supported the command checks (R143). -/
inductive Instr where
  /-- `PACK b`: `pack(values, bits)` (R112, R170). -/
  | pack (b : Nat)
  /-- `UNPACK b`: `unpack(packed, bits)` (R112, R190). -/
  | unpack (b : Nat)
  /-- `UNPACK_DELTA b`: `decodeWithPrefix(base, packed, bits)` (R112, R210). -/
  | unpackDelta (b : Nat)
  deriving DecidableEq, Repr

/-- The width a command carries (R113). -/
def Instr.width : Instr → Nat
  | .pack b => b
  | .unpack b => b
  | .unpackDelta b => b

end Sys2Proof
end

