-- ==== Sys2Proof/WellFormed.lean ====
section
/-! DEFINITION. Which terms of `Instr` are commands that some CMD word encodes. -/

namespace Sys2Proof

/-- The width fits the 8-bit field BITS: `<b>` is 0 to 255 (30_encoding.md R113, R119). A width of 0 or of 33 to
255 is a legal encoding; the command itself refuses it (R113, R143). -/
def Instr.wellFormed : Instr → Bool
  | .pack b => decide (b < 256)
  | .unpack b => decide (b < 256)
  | .unpackDelta b => decide (b < 256)

end Sys2Proof
end

