-- ==== Sys2Proof/Decode.lean ====
section
/-! DEFINITION. CMD words: the fields of CMD32, the total decoder, and the encoder (30_encoding.md R110 to R119).
The BPU fetches no instruction bytes (R32, R90): a command reaches the decoder as one whole 32-bit word. -/

namespace Sys2Proof

/-- OP, bits [3:0] (R111). -/
def cmdOp (v : Word) : BitVec 4 := v.extractLsb 3 0

/-- RSV0, bits [7:4] (R111). -/
def cmdRsv0 (v : Word) : BitVec 4 := v.extractLsb 7 4

/-- BITS, bits [15:8] (R111). -/
def cmdBits (v : Word) : BitVec 8 := v.extractLsb 15 8

/-- RSV1, bits [31:16] (R111). -/
def cmdRsv1 (v : Word) : BitVec 16 := v.extractLsb 31 16

/-- Why a CMD word is an illegal encoding (R115). -/
inductive IllegalEncoding where
  /-- RSV1 is not 0. -/
  | rsv1Set
  /-- RSV0 is not 0. -/
  | rsv0Set
  /-- OP is 0x0 or 0x4 to 0xF. -/
  | reservedOp
  deriving DecidableEq, Repr

/-- What the decoder answers: a command, or Illegal with its reason. -/
inductive Decoded where
  | legal (i : Instr)
  | illegal (why : IllegalEncoding)
  deriving DecidableEq, Repr

/-- The command of a decoded word, if it is one. -/
def Decoded.instr? : Decoded → Option Instr
  | .legal i => some i
  | .illegal _ => none

/-- The decoder of R117, total over all 2^32 words. The width is `zext_8(BITS)` (R113); it is not checked here. -/
def decode (v : Word) : Decoded :=
  if cmdRsv1 v ≠ 0 then .illegal .rsv1Set
  else if cmdRsv0 v ≠ 0 then .illegal .rsv0Set
  else match (cmdOp v).toNat with
    | 1 => .legal (.pack (cmdBits v).toNat)
    | 2 => .legal (.unpack (cmdBits v).toNat)
    | 3 => .legal (.unpackDelta (cmdBits v).toNat)
    | _ => .illegal .reservedOp

/-- The OP value of each command (R112). -/
def Instr.op : Instr → Nat
  | .pack _ => 1
  | .unpack _ => 2
  | .unpackDelta _ => 3

/-- A CMD32 word from its fields, most significant first: RSV1, BITS, RSV0, OP (R111). -/
def cmd32 (bits op : Nat) : Word :=
  0#16 ++ BitVec.ofNat 8 bits ++ 0#4 ++ BitVec.ofNat 4 op

/-- The CMD word of a command (R111, R112, R119). -/
def encode (i : Instr) : Word := cmd32 i.width i.op

/-- The decoder's answer on the word of an opcode-table row: `nbits` bits of `w`, every bit above them 0. A number
that needs more than the one 32-bit format has (R110) is no CMD word. -/
def decodeTableWord (nbits w : Nat) : Option Instr :=
  let v := w % 2 ^ nbits
  if v < 2 ^ 32 then (decode (BitVec.ofNat 32 v)).instr? else none

end Sys2Proof
end

