-- ==== Sys2Proof/Config.lean ====
section
/-! DEFINITION. The implementation parameters of 00_scope.md R7: the fixed ones as numbers, the OPEN ones
(decisions D5, D6, D25) as constants with no body, so that no proof can see their value. -/

namespace Sys2Proof.Config

/-- `BLOCK`: values per block (R7). -/
def block : Nat := 128

/-- `W`: lanes, fixed at 4 (R7, decision D4). -/
def lanes : Nat := 4

/-- `LANE_VALUES`: values per lane (R7). -/
def laneValues : Nat := 32

/-- `PACKED_WORDS(b) = 4*b`; a function of the width alone (R7, R8). -/
def packedWords (b : Nat) : Nat := lanes * b

/-- The smallest `SPM_WORDS` the spec allows (R7, R44, decision D5). -/
def minSpmWords : Nat := 256

/-- How many SPM words this instance has beyond 256. OPEN, so no value is given (decision D5).
The bound says that the 32-bit register SPM_SIZE can hold `SPM_WORDS` (R43). DEDUCED, safe: log entry 3. -/
opaque extraSpmWords : Fin 4294967040

/-- `SPM_WORDS`: the number of 32-bit scratchpad words, at least 256, otherwise OPEN (R7, decision D5). A constant of
the machine, stored nowhere (R48). (256 is the second summand so that the kernel evaluates `spmWords < n` for every
numeral `n` up to 256; irreducible, so that the elaborator does not try that on other terms.) -/
@[irreducible] def spmWords : Nat := extraSpmWords.val + minSpmWords

/-- `BPU_BASE`: where the aperture stands in the platform's address map. OPEN (R7, R84, decision D6). -/
opaque bpuBase : Nat

/-- The platform address of byte offset `off` of the aperture (R71: offsets are bytes from `BPU_BASE`). -/
def platformAddress (off : Nat) : Nat := bpuBase + off

/-- `CMD_LATENCY(op, b)`: the time a command takes. OPEN; no rule, and so no definition here, depends on it
(R270, decision D25). -/
opaque cmdLatency : Nat → Nat → Nat

end Sys2Proof.Config
end

