-- ==== Sys2Proof/Machine/State.lean ====
section
/-! DEFINITION. The state of the BPU (10_state.md R30 to R48) and of its host port (20_memory.md R70), the reasons a
step can stop, and the state after reset (70_reset_and_hazards.md R260). All of it is plain data. -/

namespace Sys2Proof.Machine

/-- The scratchpad's bytes: key `4*w + n` holds byte `n` of SPM word `w` (R44; the byte order is R79's).
A word is defined, `def[w]` of R45, when its four bytes are listed. Canonical form: `Memory.wf` in Machine/Ops.lean; that
every word listed is one of `Fin SPM_WORDS` (R48) is part of the invariant `Inv` (log entries 2 and 4). -/
abbrev Memory := List Host.Cell

/-- One transaction on the host port (R70). `width` is its width in bits, since only 32 is admitted (R72); `off` is
the byte offset from `BPU_BASE`; `v` is the data written, which only an admitted write uses. -/
inductive Transaction where
  /-- `Read(a)`. -/
  | read (width off : Nat)
  /-- `Write(a, v)`. -/
  | write (width off : Nat) (v : Word)
  deriving DecidableEq, Repr

/-- What the world outside can do to the BPU: a host transaction (R70, R92), or the reset input (R260, R261). -/
inductive HostEvent where
  /-- The host sends a transaction, and waits for it to complete (R77). -/
  | transaction (t : Transaction)
  /-- The reset input, between transactions (R260). -/
  | reset
  /-- The reset input while a write of `v` to CMD is running its command (R261). -/
  | resetDuringCommand (v : Word)
  deriving DecidableEq, Repr

/-- What the host gets back (R70). -/
inductive Response where
  /-- The word a `Read` returns. -/
  | data (v : Word)
  /-- An admitted `Write` completed. -/
  | ok
  /-- The transaction at offset `off` was refused (R72, R232). -/
  | busError (off : Nat)
  deriving DecidableEq, Repr

/-- The reasons the machine stops with a fault. -/
inductive Fault where
  /-- `Fault(UninitRead)` of R45 and R233: word `w` of the SPM, never written since reset, was read. Raised by a host
  read (R75) and by the read phase of PACK, UNPACK and UNPACK_DELTA (R149). Safe: the spec makes it a stop of the
  model, where the hardware goes on with an unspecified value. -/
  | uninitRead (w : Nat)
  deriving DecidableEq, Repr

/-- The reasons the model has no meaning for a step. -/
inductive Refusal where
  /-- The instruction of that mnemonic has no meaning in the model yet. Raised by no arm of `exec`: all three
  commands have their meaning. Safe. -/
  | notModelled (mnemonic : String)
  deriving DecidableEq, Repr

/-- The state: the record of R48, and the two ends of the host port. `SPM_SIZE` is the constant `Config.spmWords` and is
not stored (R43, R48). -/
structure State where
  /-- CMD, offset 0x000: the last value written (R35). -/
  cmd : Word
  /-- STATUS.ERR: the code of the most recent command (R36, R230). STATUS bits [31:4] always read 0 and are not kept. -/
  err : BitVec 4
  /-- SRC, offset 0x008: SPM word index of the first source word (R38). -/
  src : Word
  /-- SRC_LEN, offset 0x00C: source length in words (R39). -/
  srcLen : Word
  /-- DST, offset 0x010: SPM word index of the first destination word (R40). -/
  dst : Word
  /-- DST_LEN, offset 0x014: destination length in words (R41). -/
  dstLen : Word
  /-- BASE, offset 0x018: the running-sum base of UNPACK_DELTA (R42). -/
  base : Word
  /-- SPM and `def` (R44, R45), word `w` of `Fin SPM_WORDS` being `State.spmAt` in Machine/Ops.lean (log entry 2). -/
  spm : Memory
  /-- The host's transactions and resets still to come, the next one first (R77, R118). Host state outside the BPU
  (R32): the model's own field, log entry 1. -/
  pending : List HostEvent
  /-- What the host got back so far, oldest first (R70, R92). Outside the BPU: the model's own field, log entry 1. -/
  responses : List Response
  deriving DecidableEq, Repr

/-- The machine right after reset (R34, R45, R260): every stored CSR 0, no SPM word defined;
no host transaction waiting and none answered (log entry 1). -/
def State.reset : State where
  cmd := 0
  err := 0
  src := 0
  srcLen := 0
  dst := 0
  dstLen := 0
  base := 0
  spm := []
  pending := []
  responses := []

end Sys2Proof.Machine
end

