-- ==== Sys2Proof/Machine/Flags.lean ====
section
/-! DEFINITION. The BPU's only status: the error codes of STATUS.ERR and the value STATUS reads as
(10_state.md R33, R36; 60_exceptions.md R230). There are no condition codes. -/

namespace Sys2Proof.Machine

/-- The errors a CMD write can report (R230). -/
inductive CmdError where
  | unsupportedWidth
  | invalidBufferSize
  | bufferOutOfRange
  | bufferOverlap
  | illegalCommand
  deriving DecidableEq, Repr

/-- The code of an error in STATUS.ERR (R230). -/
def errCode : CmdError → BitVec 4
  | .unsupportedWidth => 1
  | .invalidBufferSize => 2
  | .bufferOutOfRange => 3
  | .bufferOverlap => 4
  | .illegalCommand => 5

/-- OK, the code of a success (R230, R149). -/
def errOk : BitVec 4 := 0

/-- What a read of STATUS returns: ERR in bits [3:0], bits [31:4] 0 (R36). -/
def statusWord (err : BitVec 4) : Word := 0#28 ++ err

end Sys2Proof.Machine
end

