-- ==== Sys2Proof/Machine/Operands.lean ====
section
/-! DEFINITION. The operands of a command: the exact mask, lane and position of an index, the required buffer sizes,
and the entry checks on the argument CSRs (00_scope.md R11, R13; 30_encoding.md R114; 40_command.md R141 to R146). -/

namespace Sys2Proof.Machine

/-- `mask(b) = 2^b - 1`, exact, so `mask 32 = 0xFFFFFFFF` (R11, R192). -/
def mask (b : Nat) : Nat := 2 ^ b - 1

/-- `lane(i) = i mod 4`, of a value index or a packed word index (R13). -/
def lane (i : Nat) : Nat := i % Config.lanes

/-- `pos(i) = i div 4`: a value's position in its lane, or a packed word's number in its lane's run (R13). -/
def pos (i : Nat) : Nat := i / Config.lanes

/-- Element `i` of a buffer as a natural number (R10). Every index the closed forms use is inside the buffer. -/
def elem (ws : List Word) (i : Nat) : Nat := (ws.getD i 0).toNat

/-- A natural number reduced to 32 bits, `& M32` or `mod 2^32` (R10). -/
def toWord (n : Nat) : Word := BitVec.ofNat 32 n

/-- `needSrc`: the source size a command requires, in words (R114, R141). -/
def needSrc : Instr → Nat
  | .pack _ => Config.block
  | .unpack b => Config.packedWords b
  | .unpackDelta b => Config.packedWords b

/-- `needDst`: the destination size a command requires, in words (R114, R141). -/
def needDst : Instr → Nat
  | .pack b => Config.packedWords b
  | .unpack _ => Config.block
  | .unpackDelta _ => Config.block

/-- The UNSUPPORTED_WIDTH check: `b < 1` or `b > 32` (R143). -/
def badWidth (b : Nat) : Bool := decide (b < 1) || decide (32 < b)

/-- The INVALID_BUFFER_SIZE check: `SL ≠ needSrc` or `DL ≠ needDst`, exactly (R144). -/
def badSizes (need_src need_dst : Nat) (s : State) : Bool :=
  s.srcLen.toNat != need_src || s.dstLen.toNat != need_dst

/-- The BUFFER_OUT_OF_RANGE check: `S + SL > SPM_WORDS` or `D + DL > SPM_WORDS`, on naturals, so that no sum wraps
(R141, R145). -/
def outOfRange (s : State) : Bool :=
  decide (Config.spmWords < s.src.toNat + s.srcLen.toNat) || decide (Config.spmWords < s.dst.toNat + s.dstLen.toNat)

/-- The BUFFER_OVERLAP check: `S < D + DL` and `D < S + SL` (R146). -/
def overlapping (s : State) : Bool :=
  decide (s.src.toNat < s.dst.toNat + s.dstLen.toNat) && decide (s.dst.toNat < s.src.toNat + s.srcLen.toNat)

end Sys2Proof.Machine
end

