-- ==== Sys2Proof/Machine/Ops.lean ====
section
/-! DEFINITION. The named operations over the state: the scratchpad's bytes, words and buffers; the CSRs; how a
command is checked, how it reports an error, and the read, compute, write frame in which each command's computation
runs (10_state.md R34 to R45; 20_memory.md R75 to R79; 40_command.md R142 to R149). -/

namespace Sys2Proof.Machine

/-! ## The scratchpad -/

/-- What an unlisted byte reads as: no value. Its word is undefined, and reading it is `Fault(UninitRead)` (R45). -/
def unlistedByte : Option Byte := none

/-- Canonical form: addresses strictly rising. (No entry can equal what an unlisted byte reads as, which is no value.) -/
abbrev Memory.wf (m : Memory) : Prop := m.Pairwise fun c d => c.1 < d.1

/-- The byte at address `a`, if it is listed. (`Nat.beq` and not a decision on `=`, so that the kernel evaluates a
read of a long list fast.) -/
def readByte : Memory → Nat → Option Byte
  | [], _ => unlistedByte
  | c :: m, a => bif Nat.beq c.1 a then some c.2 else readByte m a

/-- The cells that bytes `bs` take from address `a` on. -/
def cellsAt : Nat → List Byte → Memory
  | _, [] => []
  | a, v :: bs => (a, v) :: cellsAt (a + 1) bs

/-- Write bytes `bs` from address `a` on: the cells below, the new ones, the cells above. -/
def writeBytes (m : Memory) (a : Nat) (bs : List Byte) : Memory :=
  m.filter (fun c => decide (c.1 < a)) ++ cellsAt a bs ++ m.filter (fun c => decide (a + bs.length ≤ c.1))

/-- The byte address of an SPM word. -/
def wordAddr (w : Nat) : Nat := 4 * w

/-- A word as four bytes, byte `+0` being bits [7:0] (R79). -/
def wordBytes (v : Word) : List Byte :=
  [v.extractLsb 7 0, v.extractLsb 15 8, v.extractLsb 23 16, v.extractLsb 31 24]

/-- Four bytes as a word (R79). -/
def wordOfBytes (b0 b1 b2 b3 : Byte) : Word := b3 ++ b2 ++ b1 ++ b0

/-- `MemRead(w, 4)`: SPM word `w`, or nothing where it is undefined (R12, R45). -/
def readWord (m : Memory) (w : Nat) : Option Word :=
  match readByte m (wordAddr w), readByte m (wordAddr w + 1), readByte m (wordAddr w + 2),
      readByte m (wordAddr w + 3) with
  | some b0, some b1, some b2, some b3 => some (wordOfBytes b0 b1 b2 b3)
  | _, _, _, _ => none

/-- `def[w]` (R45). -/
def defined (m : Memory) (w : Nat) : Bool := (readWord m w).isSome

/-- `MemWrite(w + j, 4, vs[j])` for every `j`, in index order: the words of a buffer, which lie side by side
(R12, R149). A word written is defined (R45). -/
def writeWords (m : Memory) (w : Nat) (vs : List Word) : Memory :=
  writeBytes m (wordAddr w) (vs.flatMap wordBytes)

/-- `MemWrite(w, 4, v)` (R12, R76). -/
def writeWord (m : Memory) (w : Nat) (v : Word) : Memory := writeWords m w [v]

/-- The read phase: the `n` words from word `w` on, in index order, or the fault of the first undefined one (R149). -/
def readWords (m : Memory) (w : Nat) : Nat → Except Fault (List Word)
  | 0 => .ok []
  | n + 1 =>
    match readWord m w with
    | none => .error (.uninitRead w)
    | some v =>
      match readWords m (w + 1) n with
      | .error f => .error f
      | .ok vs => .ok (v :: vs)

/-- SPM word `w`, or nothing where `def[w]` is false: SPM and `def` of R48, indexed by `Fin SPM_WORDS`. -/
def State.spmAt (s : State) (w : Fin Config.spmWords) : Option Word := readWord s.spm w

/-- `def[w]` of R48, indexed by `Fin SPM_WORDS`. -/
def State.definedAt (s : State) (w : Fin Config.spmWords) : Bool := defined s.spm w

/-! ## The CSRs and the host port's two ends -/

/-- `csr.CMD <- v`. -/
def State.withCmd (s : State) (v : Word) : State := { s with cmd := v }
/-- `csr.STATUS.ERR <- e`. -/
def State.withErr (s : State) (e : BitVec 4) : State := { s with err := e }
/-- `csr.SRC <- v`. -/
def State.withSrc (s : State) (v : Word) : State := { s with src := v }
/-- `csr.SRC_LEN <- v`. -/
def State.withSrcLen (s : State) (v : Word) : State := { s with srcLen := v }
/-- `csr.DST <- v`. -/
def State.withDst (s : State) (v : Word) : State := { s with dst := v }
/-- `csr.DST_LEN <- v`. -/
def State.withDstLen (s : State) (v : Word) : State := { s with dstLen := v }
/-- `csr.BASE <- v`. -/
def State.withBase (s : State) (v : Word) : State := { s with base := v }
/-- The scratchpad after a write. -/
def State.withSpm (s : State) (m : Memory) : State := { s with spm := m }
/-- The host's transactions still to come. -/
def State.withPending (s : State) (es : List HostEvent) : State := { s with pending := es }
/-- The host gets the response `r`. -/
def State.respond (s : State) (r : Response) : State := { s with responses := s.responses ++ [r] }

/-- The CSRs (R34). -/
inductive Csr where
  | cmd | status | src | srcLen | dst | dstLen | base | spmSize
  deriving DecidableEq, Repr

/-- A CSR's byte offset in the aperture (R34). -/
def Csr.offset : Csr → Nat
  | .cmd => 0x000
  | .status => 0x004
  | .src => 0x008
  | .srcLen => 0x00C
  | .dst => 0x010
  | .dstLen => 0x014
  | .base => 0x018
  | .spmSize => 0x01C

/-- The CSR at a byte offset, if the offset names one (R34). -/
def Csr.at? : Nat → Option Csr
  | 0x000 => some .cmd
  | 0x004 => some .status
  | 0x008 => some .src
  | 0x00C => some .srcLen
  | 0x010 => some .dst
  | 0x014 => some .dstLen
  | 0x018 => some .base
  | 0x01C => some .spmSize
  | _ => none

/-- A CSR's current value (R35 to R43, R73). SPM_SIZE reads the constant `SPM_WORDS` (R43, R48). -/
def readCsr (s : State) : Csr → Word
  | .cmd => s.cmd
  | .status => statusWord s.err
  | .src => s.src
  | .srcLen => s.srcLen
  | .dst => s.dst
  | .dstLen => s.dstLen
  | .base => s.base
  | .spmSize => toWord Config.spmWords

/-- Store `v` in a CSR: the argument CSRs and CMD keep all 32 bits, STATUS and SPM_SIZE ignore it (R35 to R43, R74).
That a write to CMD also runs a command is `hostWrite`'s. -/
def writeCsr (s : State) (v : Word) : Csr → State
  | .cmd => s.withCmd v
  | .status => s
  | .src => s.withSrc v
  | .srcLen => s.withSrcLen v
  | .dst => s.withDst v
  | .dstLen => s.withDstLen v
  | .base => s.withBase v
  | .spmSize => s

/-! ## Commands -/

/-- `raise CmdError(code)`: the BPU's one way to report an error, shared by all checks. STATUS.ERR takes the code and
the command ends; no SPM word is read or written, no other CSR changes (R148, R231). There is no trap entry: nothing
is saved, no mode changes, no control moves (R237); and so no trap return (R238). -/
def raiseCmdError (e : CmdError) (s : State) : Host.Outcome State Fault Refusal :=
  .next (s.withErr (errCode e))

/-- The entry checks after decoding, in the order of R147: width, sizes, range, overlap. The first that fails. -/
def validate (b need_src need_dst : Nat) (s : State) : Option CmdError :=
  if badWidth b then some .unsupportedWidth
  else if badSizes need_src need_dst s then some .invalidBufferSize
  else if outOfRange s then some .bufferOutOfRange
  else if overlapping s then some .bufferOverlap
  else none

/-- The write phase and the success code (R149). -/
def complete (dst : List Word) (s : State) : State :=
  (s.withSpm (writeWords s.spm s.dst.toNat dst)).withErr errOk

/-- The frame of every command (R140 from `validate` on, R149): checks, read phase, compute phase, write phase. -/
def runCommand (b need_src need_dst : Nat) (compute : List Word → List Word) (s : State) :
    Host.Outcome State Fault Refusal :=
  match validate b need_src need_dst s with
  | some e => raiseCmdError e s
  | none =>
    match readWords s.spm s.src.toNat s.srcLen.toNat with
    | .error f => .fault f
    | .ok srcWords => .next (complete (compute srcWords) s)

end Sys2Proof.Machine
end

