-- ==== Sys2Proof/Machine/Pack.lean ====
section
/-! DEFINITION. PACK, the bit-packing encoder (41_pack.md R170 to R173), in the closed form that R153 asks of a model. -/

namespace Sys2Proof.Machine

/-- Lane `k`'s bit stream `S_k`: its 32 masked values end to end, the first lowest (R171, R172). -/
def packStream (b : Nat) (v : List Word) (k : Nat) : Nat :=
  ((List.range Config.laneValues).map fun r => (elem v (4 * r + k) &&& mask b) <<< (r * b)).sum

/-- Packed word `j`: word `m = j div 4` of lane `k = j mod 4`'s stream (R171). -/
def packedWord (b : Nat) (v : List Word) (j : Nat) : Word :=
  toWord (packStream b v (lane j) >>> (32 * pos j))

/-- The `4*b` words PACK computes from the 128 values `v` (R171). -/
def packBlock (b : Nat) (v : List Word) : List Word :=
  (List.range (Config.packedWords b)).map (packedWord b v)

/-- PACK (R170 to R177): 128 source words, `4*b` destination words; BASE is not read. -/
def execPack (b : Nat) (s : State) : Host.Outcome State Fault Refusal :=
  runCommand b (needSrc (.pack b)) (needDst (.pack b)) (packBlock b) s

end Sys2Proof.Machine
end

