-- ==== Sys2Proof/Machine/Unpack.lean ====
section
/-! DEFINITION. UNPACK, the bit-unpacking decoder (42_unpack.md R190 to R192), in closed form. -/

namespace Sys2Proof.Machine

/-- Lane `k`'s bit stream `S_k`: its `b` packed words end to end, word 0 lowest (R191). -/
def unpackStream (b : Nat) (p : List Word) (k : Nat) : Nat :=
  ((List.range b).map fun m => elem p (4 * m + k) <<< (32 * m)).sum

/-- Value `i`: field `r = i div 4` of lane `k = i mod 4`'s stream, masked (R191, R192). -/
def unpackedValue (b : Nat) (p : List Word) (i : Nat) : Word :=
  toWord ((unpackStream b p (lane i) >>> (pos i * b)) &&& mask b)

/-- The 128 values UNPACK computes from the `4*b` packed words `p` (R191). -/
def unpackBlock (b : Nat) (p : List Word) : List Word :=
  (List.range Config.block).map (unpackedValue b p)

/-- UNPACK (R190 to R197): `4*b` source words, 128 destination words; BASE is not read. -/
def execUnpack (b : Nat) (s : State) : Host.Outcome State Fault Refusal :=
  runCommand b (needSrc (.unpack b)) (needDst (.unpack b)) (unpackBlock b) s

end Sys2Proof.Machine
end

