-- ==== Sys2Proof/Machine/UnpackDelta.lean ====
section
/-! DEFINITION. UNPACK_DELTA, the fused delta-prefix-sum decoder (43_unpack_delta.md R210, R211, R215), in closed form. -/

namespace Sys2Proof.Machine

/-- `Out[i]`: the base plus the inclusive sum of the deltas up to `i`, modulo 2^32 (R211, R215). -/
def runningSum (base : Word) (d : List Word) (i : Nat) : Word :=
  toWord (base.toNat + ((d.take (i + 1)).map BitVec.toNat).sum)

/-- The 128 running sums UNPACK_DELTA computes from the `4*b` packed words `p` and the base (R211). -/
def deltaBlock (b : Nat) (base : Word) (p : List Word) : List Word :=
  (List.range Config.block).map (runningSum base (unpackBlock b p))

/-- UNPACK_DELTA (R210 to R218): `4*b` source words and BASE, 128 destination words. -/
def execUnpackDelta (b : Nat) (s : State) : Host.Outcome State Fault Refusal :=
  runCommand b (needSrc (.unpackDelta b)) (needDst (.unpackDelta b)) (deltaBlock b s.base) s

end Sys2Proof.Machine
end

