-- ==== Sys2Proof/Machine/Dispatch.lean ====
section
/-! DEFINITION. Which meaning each command has (30_encoding.md R112). A command runs at the state in which CMD
already holds its word (40_command.md R140). -/

namespace Sys2Proof.Machine

def exec (i : Instr) (s : State) : Host.Outcome State Fault Refusal :=
  match i with
  | .pack b => Sys2Proof.Machine.execPack b s
  | .unpack b => Sys2Proof.Machine.execUnpack b s
  | .unpackDelta b => Sys2Proof.Machine.execUnpackDelta b s

end Sys2Proof.Machine
end

