-- ==== Sys2Proof/Machine/HostPort.lean ====
section
/-! DEFINITION. The host port: which transactions are admitted, what a read and a write do, how a CMD write issues a
command, and the reset input (20_memory.md R70 to R77; 40_command.md R140; 70_reset_and_hazards.md R260, R261). -/

namespace Sys2Proof.Machine

/-- What an admitted offset names: a CSR, or an SPM word, which is an index below `SPM_WORDS` (R48, R71). -/
inductive Target where
  | csr (r : Csr)
  | spmWord (w : Fin Config.spmWords)
  deriving DecidableEq, Repr

/-- The first byte offset of the SPM window (R71). -/
def spmWindow : Nat := 0x1000

/-- What an aligned offset names, if anything: the CSRs at 0x000 to 0x01C, and the SPM words from 0x1000 on; the rest
is reserved or unmapped (R71). -/
def target? (off : Nat) : Option Target :=
  if off < spmWindow then (Csr.at? off).map .csr
  else if h : (off - spmWindow) / 4 < Config.spmWords then some (.spmWord ⟨(off - spmWindow) / 4, h⟩)
  else none

/-- Admission: 32 bits wide, a multiple of 4, and naming a CSR or an SPM word (R72). -/
def admittedTarget (width off : Nat) : Option Target :=
  if width = 32 ∧ off % 4 = 0 then target? off else none

/-- The transaction completes: the host gets `r` with the state the outcome answers. -/
def respondWith (r : Response) : Host.Outcome State Fault Refusal → Host.Outcome State Fault Refusal
  | .next s => .next (s.respond r)
  | .fault f => .fault f
  | .refused x => .refused x

/-- An admitted read: the CSR's value (R73), or the SPM word if it is defined, else the model fault (R75). -/
def hostRead (s : State) : Target → Host.Outcome State Fault Refusal
  | .csr r => .next (s.respond (.data (readCsr s r)))
  | .spmWord w =>
    match s.spmAt w with
    | some v => .next (s.respond (.data v))
    | none => .fault (.uninitRead w)

/-- The command a CMD write of `v` runs: `csr.CMD <- v`, decode, and the command, or ILLEGAL_COMMAND (R140, R142). -/
def issueCommand (v : Word) (s : State) : Host.Outcome State Fault Refusal :=
  match decode v with
  | .illegal _ => raiseCmdError .illegalCommand (writeCsr s v .cmd)
  | .legal i => exec i (writeCsr s v .cmd)

/-- An admitted write: CMD runs a command before the transaction completes, the other CSRs store or ignore the value
(R74), an SPM word stores it and is defined (R76). The host gets `ok`. -/
def hostWrite (v : Word) (s : State) : Target → Host.Outcome State Fault Refusal
  | .csr .cmd => respondWith .ok (issueCommand v s)
  | .csr r => respondWith .ok (.next (writeCsr s v r))
  | .spmWord w => respondWith .ok (.next (s.withSpm (writeWord s.spm w v)))

/-- One host transaction, from start to completion (R70, R77). A refused one changes no BPU state (R72, R232). -/
def hostTransaction (s : State) : Transaction → Host.Outcome State Fault Refusal
  | .read width off =>
    match admittedTarget width off with
    | none => .next (s.respond (.busError off))
    | some t => hostRead s t
  | .write width off v =>
    match admittedTarget width off with
    | none => .next (s.respond (.busError off))
    | some t => hostWrite v s t

/-- The reset input (R260): CMD, STATUS.ERR and the argument CSRs become 0 and every SPM word undefined. The host's side
of the port is not the BPU's to reset (R32; log entry 1). -/
def resetInput (s : State) : State :=
  { State.reset with pending := s.pending, responses := s.responses }

/-- What one event does. A reset during a command abandons it: the state is that of R260 and the cut transaction gets
no response (R261, I19). -/
def perform (s : State) : HostEvent → Host.Outcome State Fault Refusal
  | .transaction t => hostTransaction s t
  | .reset => .next (resetInput s)
  | .resetDuringCommand _ => .next (resetInput s)

/-- Perform the next event, in the order the host issues them (R77). With none waiting the BPU is idle and keeps
everything (R244; log entry 6). -/
def performNext (s : State) : Host.Outcome State Fault Refusal :=
  match s.pending with
  | [] => .next s
  | e :: rest => perform (s.withPending rest) e

end Sys2Proof.Machine
end

