-- ==== Sys2Proof/Machine/Step.lean ====
section
/-! DEFINITION. One step: the next event on the host port, from start to completion (20_memory.md R77). -/

namespace Sys2Proof.Machine

/-- One step of the machine. A step ends in a next state or in the model fault; a command, successful or refused,
ends within the step of its CMD write (R77, R154). -/
def step (s : State) : Host.Outcome State Fault Refusal := performNext s

/-- `s` with a host write of that CMD word waiting as the next transaction: the BPU's only way to be given a command
(R32, R140). The word is `nbits` bits of `w`, every bit above them 0. -/
def State.withFetchWord (s : State) (nbits w : Nat) : State :=
  s.withPending (.transaction (.write 32 Csr.cmd.offset (BitVec.ofNat 32 (w % 2 ^ nbits))) :: s.pending)

end Sys2Proof.Machine
end

