-- ==== Sys2Proof/Machine/Datapath.lean ====
section
/-! DEFINITION. How the BPU computes what the closed forms say: the source's scalar algorithms (41_pack.md R174,
42_unpack.md R193) and the four-lane datapath in lockstep (10_state.md R46; 41_pack.md R175; 42_unpack.md R194;
43_unpack_delta.md R212, R213). None of it is observable: the meanings use the closed forms, as R153 asks, and the
statements say that these agree with them. -/

namespace Sys2Proof.Machine

/-- `x & mask(b)` on a 32-bit register. -/
def maskWord (b : Nat) (x : Word) : Word := x &&& BitVec.ofNat 32 (mask b)

/-! ## One lane at a time: the source's scalar algorithms -/

/-- The scalar encoder's registers for one lane, and the words it has flushed, oldest first, so that `m` is their
number (R174). -/
structure ScalarPack where
  acc : Word
  off : Nat
  out : List Word
  deriving DecidableEq, Repr

/-- One value `v` of the scalar encoder (R174). -/
def scalarPackStep (b : Nat) (st : ScalarPack) (v : Word) : ScalarPack :=
  let x := maskWord b v
  let acc := st.acc ||| (x <<< st.off)
  if st.off + b ≤ 32 then
    if st.off + b = 32 then ⟨0, 0, st.out ++ [acc]⟩ else ⟨acc, st.off + b, st.out⟩
  else ⟨x >>> (32 - st.off), b - (32 - st.off), st.out ++ [acc]⟩

/-- Lane `k` through the scalar encoder: its 32 values in order (R174). -/
def scalarPackLane (b : Nat) (v : List Word) (k : Nat) : ScalarPack :=
  ((List.range Config.laneValues).map fun r => v.getD (4 * r + k) 0).foldl (scalarPackStep b) ⟨0, 0, []⟩

/-- The scalar encoder's output, word `m` of lane `k` at index `4*m + k` (R174). -/
def scalarPack (b : Nat) (v : List Word) : List Word :=
  (List.range (Config.packedWords b)).map fun j => (scalarPackLane b v (lane j)).out.getD (pos j) 0

/-- The scalar decoder's read cursor for one lane, and the values it has extracted, oldest first (R193). -/
structure ScalarUnpack where
  m : Nat
  off : Nat
  out : List Word
  deriving DecidableEq, Repr

/-- One field of the scalar decoder on lane `k` of `p` (R193). -/
def scalarUnpackStep (b : Nat) (p : List Word) (k : Nat) (st : ScalarUnpack) : ScalarUnpack :=
  let cur := p.getD (4 * st.m + k) 0
  if st.off + b ≤ 32 then
    let x := maskWord b (cur >>> st.off)
    if st.off + b = 32 then ⟨st.m + 1, 0, st.out ++ [x]⟩ else ⟨st.m, st.off + b, st.out ++ [x]⟩
  else
    let nxt := p.getD (4 * (st.m + 1) + k) 0
    let x := maskWord b ((cur >>> st.off) ||| (nxt <<< (32 - st.off)))
    ⟨st.m + 1, b - (32 - st.off), st.out ++ [x]⟩

/-- Lane `k` through the scalar decoder: 32 fields (R193). -/
def scalarUnpackLane (b : Nat) (p : List Word) (k : Nat) : ScalarUnpack :=
  (List.range Config.laneValues).foldl (fun st _ => scalarUnpackStep b p k st) ⟨0, 0, []⟩

/-- The scalar decoder's output, value `r` of lane `k` at index `4*r + k` (R193). -/
def scalarUnpack (b : Nat) (p : List Word) : List Word :=
  (List.range Config.block).map fun i => (scalarUnpackLane b p (lane i)).out.getD (pos i) 0

/-! ## Four lanes in lockstep -/

/-- A 4-lane register: one value per sub-stream (R46). -/
structure Lanes where
  l0 : Word
  l1 : Word
  l2 : Word
  l3 : Word
  deriving DecidableEq, Repr

/-- The same operation on every lane. -/
def Lanes.map (f : Word → Word) (x : Lanes) : Lanes := ⟨f x.l0, f x.l1, f x.l2, f x.l3⟩

/-- The same operation on every lane of two registers. -/
def Lanes.zip (f : Word → Word → Word) (x y : Lanes) : Lanes := ⟨f x.l0 y.l0, f x.l1 y.l1, f x.l2 y.l2, f x.l3 y.l3⟩

/-- Lane `l` of a register; there are four. -/
def Lanes.get (x : Lanes) : Nat → Word
  | 0 => x.l0
  | 1 => x.l1
  | 2 => x.l2
  | _ => x.l3

/-- The register's four words, lane 0 first. -/
def Lanes.words (x : Lanes) : List Word := [x.l0, x.l1, x.l2, x.l3]

/-- The register that holds words `4*n` to `4*n + 3` of a buffer (R175, R194). -/
def loadLanes (ws : List Word) (n : Nat) : Lanes :=
  ⟨ws.getD (4 * n) 0, ws.getD (4 * n + 1) 0, ws.getD (4 * n + 2) 0, ws.getD (4 * n + 3) 0⟩

/-- The datapath's registers (R46). They exist only during a command. -/
structure Datapath where
  /-- The 4-lane value register. -/
  value : Lanes
  /-- The 4-lane accumulator. -/
  acc : Lanes
  /-- The bit offset common to all lanes. -/
  off : Nat
  /-- The read cursor of unpacking: its word index ... -/
  cursorWord : Nat
  /-- ... and its bit offset. -/
  cursorOff : Nat
  /-- The running sum that one 4-lane register passes to the next (UNPACK_DELTA). -/
  carry : Word
  deriving DecidableEq, Repr

/-- The datapath as a command starts: accumulator and offsets 0, the carry at the command's base (R174, R193, R212). -/
def Datapath.start (base : Word) : Datapath := ⟨⟨0, 0, 0, 0⟩, ⟨0, 0, 0, 0⟩, 0, 0, 0, base⟩

/-- Step `r` of PACK in lockstep: load, mask, shift by the common offset, OR into the accumulator; flush the
accumulator when it is full, and keep what overflowed (R175). The second component is what was written so far. -/
def packLanesStep (b : Nat) (v : List Word) (st : Datapath × List Word) (r : Nat) : Datapath × List Word :=
  let dp := st.1
  let x := (loadLanes v r).map (maskWord b)
  let acc := dp.acc.zip (· ||| ·) (x.map (· <<< dp.off))
  if dp.off + b < 32 then
    ({ dp with value := x, acc := acc, off := dp.off + b }, st.2)
  else
    let spill := if 32 < dp.off + b then x.map (· >>> (32 - dp.off)) else ⟨0, 0, 0, 0⟩
    ({ dp with value := x, acc := spill, off := dp.off + b - 32 }, st.2 ++ acc.words)

/-- PACK on the four-lane datapath (R175). -/
def packLanes (b : Nat) (v : List Word) : List Word :=
  ((List.range Config.laneValues).foldl (packLanesStep b v) (Datapath.start 0, [])).2

/-- One step of UNPACK in lockstep: shift and mask the current packed register; where the field straddles, combine
it with the next one. The result is in the value register (R194). -/
def unpackLanesStep (b : Nat) (p : List Word) (dp : Datapath) : Datapath :=
  let cur := (loadLanes p dp.cursorWord).map (· >>> dp.cursorOff)
  if dp.cursorOff + b ≤ 32 then
    let x := cur.map (maskWord b)
    if dp.cursorOff + b = 32 then { dp with value := x, cursorWord := dp.cursorWord + 1, cursorOff := 0 }
    else { dp with value := x, cursorOff := dp.cursorOff + b }
  else
    let nxt := (loadLanes p (dp.cursorWord + 1)).map (· <<< (32 - dp.cursorOff))
    { dp with value := (cur.zip (· ||| ·) nxt).map (maskWord b), cursorWord := dp.cursorWord + 1,
              cursorOff := b - (32 - dp.cursorOff) }

/-- UNPACK on the four-lane datapath, writing one 4-lane register a step (R194). -/
def unpackLanes (b : Nat) (p : List Word) : List Word :=
  ((List.range Config.laneValues).foldl (fun (st : Datapath × List Word) _ =>
    let dp := unpackLanesStep b p st.1
    (dp, st.2 ++ dp.value.words)) (Datapath.start 0, [])).2

/-- `laneShift(x, s)`: every lane moves `s` lanes toward the higher index, zeros fill the low lanes (R213). -/
def laneShift (x : Lanes) (s : Nat) : Lanes :=
  let sh (l : Nat) : Word := if s ≤ l then x.get (l - s) else 0
  ⟨sh 0, sh 1, sh 2, sh 3⟩

/-- One register of the running sum: the 1-lane and the 2-lane shift-and-add, then the carry in every lane (R212).
All additions are modulo 2^32. -/
def sumLanes (carry : Word) (x : Lanes) : Lanes :=
  let x := x.zip (· + ·) (laneShift x 1)
  let x := x.zip (· + ·) (laneShift x 2)
  x.map (· + carry)

/-- UNPACK_DELTA on the four-lane datapath: unpack one register, sum it, write it, and pass its last lane on
(R212, R214). -/
def deltaLanes (b : Nat) (base : Word) (p : List Word) : List Word :=
  ((List.range Config.laneValues).foldl (fun (st : Datapath × List Word) _ =>
    let dp := unpackLanesStep b p st.1
    let x := sumLanes dp.carry dp.value
    ({ dp with carry := x.l3 }, st.2 ++ x.words)) (Datapath.start base, [])).2

end Sys2Proof.Machine
end

