-- ==== Sys2Proof/Machine/Program.lean ====
section
/-! DEFINITION. Host programs: the notation of 30_encoding.md R118 to R120, as data. A program is the host's list of
transactions; its position is host state outside the BPU (R32), which `State.pending` holds (log entry 1). -/

namespace Sys2Proof.Machine

/-- One line of a host program (R118). -/
inductive ProgramLine where
  /-- `W <off>, <v>`. -/
  | write (off : Nat) (v : Word)
  /-- `R <off>`. -/
  | read (off : Nat)
  /-- `R <off> == <v>`: the program expects the value `v`, a test assertion and no BPU operation. -/
  | expect (off : Nat) (v : Word)
  deriving DecidableEq, Repr

/-- The transaction a line sends: whole 32-bit accesses (R118, R80). -/
def ProgramLine.transaction : ProgramLine → Transaction
  | .write off v => .write 32 off v
  | .read off => .read 32 off
  | .expect off _ => .read 32 off

/-- A program as the events the host sends, in order (R118). -/
def programEvents (ls : List ProgramLine) : List HostEvent := ls.map fun l => .transaction l.transaction

/-- `SPM+w` (R118). -/
def spmOffset (w : Nat) : Nat := spmWindow + 4 * w

/-- `W CMD, <mnemonic>` (R119). -/
def writeCmd (i : Instr) : ProgramLine := .write Csr.cmd.offset (encode i)

/-- `LOAD w, [v0, v1, ...]` (R120). -/
def loadWords : Nat → List Word → List ProgramLine
  | _, [] => []
  | w, v :: vs => .write (spmOffset w) v :: loadWords (w + 1) vs

/-- `FILL w, n, v` (R120). -/
def fillWords (w n : Nat) (v : Word) : List ProgramLine := loadWords w (List.replicate n v)

/-- The four writes of the buffer descriptors that the `DO_` pseudo-instructions begin with (R120). -/
def setBuffers (s : Word) (sl : Nat) (d : Word) (dl : Nat) : List ProgramLine :=
  [.write Csr.src.offset s, .write Csr.srcLen.offset (toWord sl), .write Csr.dst.offset d,
    .write Csr.dstLen.offset (toWord dl)]

/-- `DO_PACK b, s, d` (R120). -/
def doPack (b : Nat) (s d : Word) : List ProgramLine := setBuffers s 128 d (4 * b) ++ [writeCmd (.pack b)]

/-- `DO_UNPACK b, s, d` (R120). -/
def doUnpack (b : Nat) (s d : Word) : List ProgramLine := setBuffers s (4 * b) d 128 ++ [writeCmd (.unpack b)]

/-- `DO_UNPACK_DELTA b, s, d, base` (R120). -/
def doUnpackDelta (b : Nat) (s d base : Word) : List ProgramLine :=
  setBuffers s (4 * b) d 128 ++ [.write Csr.base.offset base, writeCmd (.unpackDelta b)]

/-- `CHECK_OK` (R120). -/
def checkOk : List ProgramLine := [.expect Csr.status.offset 0]

/-- Whether the responses are those a program's lines expect: the word `v` for `R off == v` (R118), `ok` for a write, a
word for a plain read. DESIGN CHOICE (log entry 15): that a plain `W` or `R` answered `BusError`, or not answered at all,
fails the program is the model's; R118 attaches an expectation to `R off == v` only. -/
def meetsExpectations : List ProgramLine → List Response → Bool
  | [], [] => true
  | .write _ _ :: ls, .ok :: rs => meetsExpectations ls rs
  | .read _ :: ls, .data _ :: rs => meetsExpectations ls rs
  | .expect _ v :: ls, .data x :: rs => decide (x = v) && meetsExpectations ls rs
  | _, _ => false

/-- A state whose host is about to send that program. -/
def State.withProgram (s : State) (ls : List ProgramLine) : State := s.withPending (programEvents ls)

end Sys2Proof.Machine
end

