-- ==== Sys2Proof/Safety.lean ====
section
/-! DEFINITION. The terms in which statements about the BPU are made: when a command passes its entry checks, what its
source buffer holds, and the invariant of the state. -/

namespace Sys2Proof.Machine

/-- Command `i` passes every entry check in state `s` (40_command.md R143 to R146): a supported width, exact buffer
sizes, both buffers inside the SPM, no shared word. -/
structure Accepted (i : Instr) (s : State) : Prop where
  width_min : 1 ≤ i.width
  width_max : i.width ≤ 32
  src_len : s.srcLen.toNat = needSrc i
  dst_len : s.dstLen.toNat = needDst i
  src_fits : s.src.toNat + needSrc i ≤ Config.spmWords
  dst_fits : s.dst.toNat + needDst i ≤ Config.spmWords
  apart : s.dst.toNat + needDst i ≤ s.src.toNat ∨ s.src.toNat + needSrc i ≤ s.dst.toNat

/-- The first `n` source words are defined and are `v 0`, `v 1`, ... -/
def HoldsSource (s : State) (n : Nat) (v : Nat → Word) : Prop :=
  ∀ j, j < n → readWord s.spm (s.src.toNat + j) = some (v j)

/-- Address `a` lies outside the bytes of the `n` SPM words from word `w` on. -/
def OutsideWords (w n a : Nat) : Prop := a < 4 * w ∨ 4 * (w + n) ≤ a

/-! ### The closed forms again, in arithmetic

The statements give a command's result in these terms, not in those of the meanings: on functions from an index to a
word, with the sums, products and quotients that R9 and R11 say the shifts and masks are. -/

/-- `S_k` of R171: lane `k`'s 32 values, each reduced to its low `b` bits, end to end. -/
def canonicalStream (b : Nat) (v : Nat → Word) (k : Nat) : Nat :=
  ∑ r ∈ Finset.range 32, (v (4 * r + k)).toNat % 2 ^ b * 2 ^ (r * b)

/-- `S_k` of R191: lane `k`'s `b` packed words end to end. -/
def packedStream (b : Nat) (p : Nat → Word) (k : Nat) : Nat :=
  ∑ m ∈ Finset.range b, (p (4 * m + k)).toNat * 2 ^ (32 * m)

/-- `V[i]` of R191: the `b`-bit field of value `i` in its lane's stream. -/
def packedField (b : Nat) (p : Nat → Word) (i : Nat) : Nat :=
  packedStream b p (i % 4) / 2 ^ (i / 4 * b) % 2 ^ b

/-- The CMD words R115 calls illegal: OP 0x0 or 0x4 to 0xF, or RSV0 not 0, or RSV1 not 0. -/
def ReservedCmdWord (v : Word) : Prop :=
  (v.toNat % 16 = 0 ∨ 4 ≤ v.toNat % 16) ∨ v.toNat / 16 % 16 ≠ 0 ∨ v.toNat / 65536 ≠ 0

/-- The host's write of `v` to CMD. -/
def cmdWrite (v : Word) : HostEvent := .transaction (.write 32 0x000 v)

/-- The invariant of the BPU's state: the scratchpad's bytes are in canonical form, come in whole words and lie inside
the SPM (R44, R45, R48, R80); STATUS.ERR holds a code that R230 lists. -/
structure Inv (s : State) : Prop where
  canonical : s.spm.wf
  whole_words : ∀ c ∈ s.spm, defined s.spm (c.1 / 4) = true
  inside : ∀ c ∈ s.spm, c.1 < 4 * Config.spmWords
  err_code : s.err.toNat ≤ 5

end Sys2Proof.Machine
end

