-- ==== Sys2Proof/Certificates/Slice0/Obligations.lean ====
section
/-! DEFINITION. The statements about the model, for the provers. Each docstring names the rule of spec/ it rests on. -/

open Sys2Proof Sys2Proof.Machine

/-! ## Encoding -/

/-- Decoding the encoding of a command gives the command back. (30_encoding.md R117 and R119; derived) -/
def Obligations.EncodedCommandDecodesToItself : Prop :=
  ∀ i : Instr, i.wellFormed = true → decode (encode i) = .legal i

/-- A word that decodes to a command is the encoding of that command. (30_encoding.md R116 and R119; derived) -/
def Obligations.LegalWordIsItsCommandsEncoding : Prop :=
  ∀ (v : Word) (i : Instr), decode v = .legal i → i.wellFormed = true ∧ encode i = v

/-- The decoder is total: each of the 2^32 words is one of the three commands with its BITS, or illegal. (R116, R117) -/
def Obligations.EveryCmdWordIsACommandOrIllegal : Prop :=
  ∀ v : Word,
    (v.toNat / 65536 = 0 → v.toNat / 16 % 16 = 0 →
      (v.toNat % 16 = 1 → decode v = .legal (.pack (v.toNat / 256 % 256))) ∧
      (v.toNat % 16 = 2 → decode v = .legal (.unpack (v.toNat / 256 % 256))) ∧
      (v.toNat % 16 = 3 → decode v = .legal (.unpackDelta (v.toNat / 256 % 256)))) ∧
    (ReservedCmdWord v → ∃ why, decode v = .illegal why)

/-- A command's CMD word is (b << 8) | OP. (30_encoding.md R111, R112 and R119; derived) -/
def Obligations.CmdWordIsWidthAndOperation : Prop :=
  ∀ b : Nat, b < 256 →
    (encode (.pack b)).toNat = (b <<< 8) ||| 1 ∧
    (encode (.unpack b)).toNat = (b <<< 8) ||| 2 ∧
    (encode (.unpackDelta b)).toNat = (b <<< 8) ||| 3

/-- The CMD words that R121 writes out decode as it says. (R121) -/
def Obligations.ExampleCmdWordsDecode : Prop :=
  (encode (.pack 1) = 0x00000101 ∧ decode 0x00000101 = .legal (.pack 1)) ∧
    (encode (.pack 2) = 0x00000201 ∧ decode 0x00000201 = .legal (.pack 2)) ∧
    (encode (.pack 32) = 0x00002001 ∧ decode 0x00002001 = .legal (.pack 32)) ∧
    (encode (.unpack 3) = 0x00000302 ∧ decode 0x00000302 = .legal (.unpack 3)) ∧
    (encode (.unpack 32) = 0x00002002 ∧ decode 0x00002002 = .legal (.unpack 32)) ∧
    (encode (.unpackDelta 2) = 0x00000203 ∧ decode 0x00000203 = .legal (.unpackDelta 2)) ∧
    (encode (.pack 0) = 0x00000001 ∧ decode 0x00000001 = .legal (.pack 0) ∧
      ∀ s : State, exec (.pack 0) s = .next { s with err := 1 }) ∧
    decode 0x00000211 = .illegal .rsv0Set

/-! ## Steps, the host port, reset -/

/-- A step on a CMD write runs the command the word decodes to. (40_command.md R140, 20_memory.md R74 and R77; derived) -/
def Obligations.StepRunsTheDecodedCommand : Prop :=
  ∀ (s : State) (rest : List HostEvent) (v : Word) (i : Instr), decode v = .legal i →
    step (s.withPending (cmdWrite v :: rest)) =
      match exec i { s with pending := rest, cmd := v } with
      | .next t => .next { t with responses := t.responses ++ [.ok] }
      | .fault f => .fault f
      | .refused x => .refused x

/-- Writing an illegal CMD word sets CMD and reports ILLEGAL_COMMAND, nothing else. (R115, R142) -/
def Obligations.IllegalCmdWordIsRefused : Prop :=
  ∀ (s : State) (rest : List HostEvent) (v : Word), ReservedCmdWord v →
    (∃ why, decode v = .illegal why) ∧
    step (s.withPending (cmdWrite v :: rest)) =
      .next { s with pending := rest, cmd := v, err := 5, responses := s.responses ++ [.ok] }

/-- A step takes exactly the next event; a transaction gets one response. The lists after a reset or idle step: the model's choice (log entries 1, 6). (20_memory.md R70 and R77; derived)
What the host's two lists hold after a reset is the model's choice (log entry 1), and so is the step with nothing waiting
(log entry 6); R70 and R77 speak of transactions only. -/
def Obligations.EachStepTakesOneEventInOrder : Prop :=
  ∀ s t : State, step s = .next t →
    t.pending = s.pending.tail ∧
    ((∃ tr rest, s.pending = .transaction tr :: rest) → ∃ r, t.responses = s.responses ++ [r]) ∧
    ((¬ ∃ tr rest, s.pending = .transaction tr :: rest) → t.responses = s.responses)

/-- With no event waiting, a step changes nothing (log entry 6: the step is the model's choice). (60_exceptions.md R244; derived) -/
def Obligations.IdleMachineKeepsEverything : Prop :=
  ∀ s : State, s.pending = [] → step s = .next s

/-- A read of each CSR returns its current value and changes no state. (R73) -/
def Obligations.CsrReadReturnsItsCurrentValue : Prop :=
  ∀ (s : State) (rest : List HostEvent),
    (∀ off x, (off, x) ∈ [(0x000, s.cmd), (0x004, BitVec.ofNat 32 s.err.toNat), (0x008, s.src), (0x00C, s.srcLen),
        (0x010, s.dst), (0x014, s.dstLen), (0x018, s.base), (0x01C, BitVec.ofNat 32 Config.spmWords)] →
      step (s.withPending (.transaction (.read 32 off) :: rest)) =
        .next { s with pending := rest, responses := s.responses ++ [.data x] })

/-- A write to SRC, SRC_LEN, DST, DST_LEN or BASE stores all 32 bits; to STATUS or SPM_SIZE it does nothing. (20_memory.md R74, 10_state.md R36, R38 to R43; derived) -/
def Obligations.CsrWriteStoresOrIsIgnored : Prop :=
  ∀ (s : State) (rest : List HostEvent) (v : Word),
    let port : State := { s with pending := rest, responses := s.responses ++ [.ok] }
    let after (off : Nat) : Host.Outcome State Fault Refusal :=
      step (s.withPending (.transaction (.write 32 off v) :: rest))
    after 0x008 = .next { port with src := v } ∧
    after 0x00C = .next { port with srcLen := v } ∧
    after 0x010 = .next { port with dst := v } ∧
    after 0x014 = .next { port with dstLen := v } ∧
    after 0x018 = .next { port with base := v } ∧
    after 0x004 = .next port ∧
    after 0x01C = .next port

/-- A host read in the SPM window returns the word if it is defined, else the model faults (the fault's word number: log entry 7). (20_memory.md R75; derived)
That the fault carries the word's number is the model's choice (log entry 7); R75's `Fault(UninitRead)` carries none. -/
def Obligations.SpmReadReturnsTheWordOrFaults : Prop :=
  ∀ (s : State) (rest : List HostEvent) (off : Nat),
    off % 4 = 0 → 0x1000 ≤ off → off < 0x1000 + 4 * Config.spmWords →
    (∀ x, readWord s.spm ((off - 0x1000) / 4) = some x →
      step (s.withPending (.transaction (.read 32 off) :: rest)) =
        .next { s with pending := rest, responses := s.responses ++ [.data x] }) ∧
    (readWord s.spm ((off - 0x1000) / 4) = none →
      step (s.withPending (.transaction (.read 32 off) :: rest)) = .fault (.uninitRead ((off - 0x1000) / 4)))

/-- A host write in the SPM window stores and defines its word and leaves every other byte alone. (R76) -/
def Obligations.SpmWriteStoresAndDefinesTheWord : Prop :=
  ∀ (s : State) (rest : List HostEvent) (off : Nat) (v : Word),
    off % 4 = 0 → 0x1000 ≤ off → off < 0x1000 + 4 * Config.spmWords →
    ∃ t, step (s.withPending (.transaction (.write 32 off v) :: rest)) = .next t ∧
      t = { s with pending := rest, responses := s.responses ++ [.ok], spm := t.spm } ∧
      readWord t.spm ((off - 0x1000) / 4) = some v ∧
      ∀ a, OutsideWords ((off - 0x1000) / 4) 1 a → readByte t.spm a = readByte s.spm a

/-- A transaction that is not 32 bits wide, aligned and naming a CSR or SPM word gets BusError and changes nothing. (R72, R232) -/
def Obligations.OnlyAdmittedTransactionsAreServed : Prop :=
  ∀ (s : State) (rest : List HostEvent) (width off : Nat) (v : Word) (e : HostEvent),
    e = .transaction (.read width off) ∨ e = .transaction (.write width off v) →
    (¬ (width = 32 ∧ off % 4 = 0 ∧ (off < 0x020 ∨ (0x1000 ≤ off ∧ off < 0x1000 + 4 * Config.spmWords))) →
      step (s.withPending (e :: rest)) =
        .next { s with pending := rest, responses := s.responses ++ [.busError off] }) ∧
    ((width = 32 ∧ off % 4 = 0 ∧ (off < 0x020 ∨ (0x1000 ≤ off ∧ off < 0x1000 + 4 * Config.spmWords))) →
      ∀ t, step (s.withPending (e :: rest)) = .next t → ∀ o, t.responses ≠ s.responses ++ [.busError o])

/-- No read of any offset and width changes a register or a byte of the scratchpad. (20_memory.md R83; derived) -/
def Obligations.ReadsHaveNoSideEffect : Prop :=
  ∀ (s t : State) (rest : List HostEvent) (width off : Nat),
    step (s.withPending (.transaction (.read width off) :: rest)) = .next t →
    t = { s with pending := rest, responses := t.responses }

/-- STATUS.ERR changes only when a host write to CMD runs a command or the BPU is reset. (R37) -/
def Obligations.StatusErrChangesOnlyByCommandOrReset : Prop :=
  ∀ s t : State, step s = .next t → t.err ≠ s.err →
    ∃ e rest, s.pending = e :: rest ∧
      ((∃ v, e = cmdWrite v) ∨ e = .reset ∨ ∃ v, e = .resetDuringCommand v)

/-- CMD, SRC, SRC_LEN, DST, DST_LEN, BASE change only by their own host write or reset; SPM_SIZE never. (40_command.md R151, 10_state.md R35, R38 to R43, 20_memory.md R74; derived) -/
def Obligations.CsrsChangeOnlyByTheirOwnWriteOrReset : Prop :=
  ∀ s t : State, step s = .next t →
    (readCsr t .spmSize).toNat = Config.spmWords ∧
    ((∃ rest, s.pending = .reset :: rest ∨ ∃ v, s.pending = .resetDuringCommand v :: rest) ∨
      ∀ off old new, (off, old, new) ∈ [(0x000, s.cmd, t.cmd), (0x008, s.src, t.src), (0x00C, s.srcLen, t.srcLen),
          (0x010, s.dst, t.dst), (0x014, s.dstLen, t.dstLen), (0x018, s.base, t.base)] →
        new ≠ old → ∃ rest, s.pending = .transaction (.write 32 off new) :: rest)

/-- A scratchpad byte changes only by a host write of its word, a successful command whose destination holds it, or reset. (20_memory.md R70 and R76, 40_command.md R149 and R151, 70_reset_and_hazards.md R260; derived) -/
def Obligations.ScratchpadByteChangesOnlyByItsWriters : Prop :=
  ∀ (s t : State) (a : Nat), step s = .next t → readByte t.spm a ≠ readByte s.spm a →
    ∃ e rest, s.pending = e :: rest ∧
      ((∃ v, e = .transaction (.write 32 (0x1000 + 4 * (a / 4)) v)) ∨
        (∃ v i, e = cmdWrite v ∧ decode v = .legal i ∧ t.err = 0 ∧
          4 * s.dst.toNat ≤ a ∧ a < 4 * (s.dst.toNat + needDst i)) ∨
        e = .reset ∨ ∃ v, e = .resetDuringCommand v)

/-- After reset every CSR is 0, SPM_SIZE reads SPM_WORDS (at least 256), and no scratchpad word is defined. (10_state.md R34 and R45, 70_reset_and_hazards.md R260, 00_scope.md R7; derived) -/
def Obligations.ResetStateHasTheSpecsValues : Prop :=
  State.reset.cmd = 0 ∧ State.reset.err = 0 ∧ State.reset.src = 0 ∧ State.reset.srcLen = 0 ∧
    State.reset.dst = 0 ∧ State.reset.dstLen = 0 ∧ State.reset.base = 0 ∧
    (readCsr State.reset .spmSize).toNat = Config.spmWords ∧ 256 ≤ Config.spmWords ∧
    ∀ w, readWord State.reset.spm w = none

/-- The reset input, between transactions or during a command, gives the reset state (what the host keeps: log entry 1). (70_reset_and_hazards.md R260 and R261, 93_implementation_defined.md I19; derived) -/
def Obligations.ResetInputGivesTheResetState : Prop :=
  ∀ (s : State) (rest : List HostEvent) (v : Word),
    step (s.withPending (.reset :: rest)) =
      .next { cmd := 0, err := 0, src := 0, srcLen := 0, dst := 0, dstLen := 0, base := 0, spm := [],
              pending := rest, responses := s.responses } ∧
    step (s.withPending (.resetDuringCommand v :: rest)) = step (s.withPending (.reset :: rest))

/-! ## Entry checks and how a command ends -/

/-- A width outside 1 to 32 gives UNSUPPORTED_WIDTH, whatever the other operands are. (R143) -/
def Obligations.UnsupportedWidthIsReported : Prop :=
  ∀ (i : Instr) (s : State), i.width < 1 ∨ 32 < i.width → exec i s = .next { s with err := 1 }

/-- A source or destination length that is not exactly the required one gives INVALID_BUFFER_SIZE. (R144) -/
def Obligations.WrongBufferSizeIsReported : Prop :=
  ∀ (b : Nat) (s : State), 1 ≤ b → b ≤ 32 →
    (s.srcLen.toNat ≠ 128 ∨ s.dstLen.toNat ≠ 4 * b → exec (.pack b) s = .next { s with err := 2 }) ∧
    (s.srcLen.toNat ≠ 4 * b ∨ s.dstLen.toNat ≠ 128 →
      exec (.unpack b) s = .next { s with err := 2 } ∧ exec (.unpackDelta b) s = .next { s with err := 2 })

/-- A buffer that reaches past the last scratchpad word gives BUFFER_OUT_OF_RANGE; the sums do not wrap. (R145) -/
def Obligations.BufferPastTheScratchpadIsReported : Prop :=
  ∀ (i : Instr) (s : State), 1 ≤ i.width → i.width ≤ 32 →
    s.srcLen.toNat = needSrc i → s.dstLen.toNat = needDst i →
    (Config.spmWords < s.src.toNat + s.srcLen.toNat ∨ Config.spmWords < s.dst.toNat + s.dstLen.toNat →
      exec i s = .next { s with err := 3 }) ∧
    (s.src = 0xFFFFFFFF → s.srcLen = 128 → exec i s = .next { s with err := 3 })

/-- Buffers that share a word give BUFFER_OVERLAP; disjoint ones, adjacent ones too, do not. (R146) -/
def Obligations.SharedWordIsReported : Prop :=
  ∀ (i : Instr) (s : State), 1 ≤ i.width → i.width ≤ 32 →
    s.srcLen.toNat = needSrc i → s.dstLen.toNat = needDst i →
    s.src.toNat + s.srcLen.toNat ≤ Config.spmWords → s.dst.toNat + s.dstLen.toNat ≤ Config.spmWords →
    ((∃ w, (s.src.toNat ≤ w ∧ w < s.src.toNat + s.srcLen.toNat) ∧
        s.dst.toNat ≤ w ∧ w < s.dst.toNat + s.dstLen.toNat) →
      exec i s = .next { s with err := 4 }) ∧
    ((¬ ∃ w, (s.src.toNat ≤ w ∧ w < s.src.toNat + s.srcLen.toNat) ∧
        s.dst.toNat ≤ w ∧ w < s.dst.toNat + s.dstLen.toNat) →
      ∀ t, exec i s = .next t → t.err = 0)

/-- A CMD write reports exactly one code: that of the first check to fail, in the order 5, 1, 2, 3, 4, or 0. (R147) -/
def Obligations.FirstFailingCheckIsReported : Prop :=
  ∀ (s t : State) (rest : List HostEvent) (v : Word), step (s.withPending (cmdWrite v :: rest)) = .next t →
    let b := v.toNat / 256 % 256
    let need_src := if v.toNat % 16 = 1 then 128 else 4 * b
    let need_dst := if v.toNat % 16 = 1 then 4 * b else 128
    (ReservedCmdWord v → t.err = 5) ∧
    (¬ ReservedCmdWord v →
      t.err.toNat =
        if b < 1 ∨ 32 < b then 1
        else if s.srcLen.toNat ≠ need_src ∨ s.dstLen.toNat ≠ need_dst then 2
        else if Config.spmWords < s.src.toNat + s.srcLen.toNat ∨ Config.spmWords < s.dst.toNat + s.dstLen.toNat then 3
        else if s.src.toNat < s.dst.toNat + s.dstLen.toNat ∧ s.dst.toNat < s.src.toNat + s.srcLen.toNat then 4
        else 0)

/-- A command that reports an error changes STATUS.ERR alone and reads and writes no scratchpad word. (40_command.md R148, 60_exceptions.md R231 and R237; derived) -/
def Obligations.CommandErrorTouchesOnlyStatus : Prop :=
  ∀ (i : Instr) (s t : State), exec i s = .next t → t.err ≠ 0 →
    t = { s with err := t.err } ∧ ∀ m : Memory, exec i { s with spm := m } = .next { t with spm := m }

/-- An accepted command whose source holds a never-written word gives Fault(UninitRead) (that it names the first: log entry 7). (40_command.md R149, 10_state.md R45, 60_exceptions.md R233; derived)
The stop is the spec's; that the fault names the first undefined word is the model's choice (log entry 7), since the
spec's `Fault(UninitRead)` carries no word number. -/
def Obligations.UndefinedSourceWordFaults : Prop :=
  ∀ (i : Instr) (s : State) (k : Nat), Accepted i s → k < needSrc i →
    readWord s.spm (s.src.toNat + k) = none → (∀ j, j < k → readWord s.spm (s.src.toNat + j) ≠ none) →
    exec i s = .fault (.uninitRead (s.src.toNat + k))

/-- Every command ends in a next state, or in the one model fault (its word number: log entry 7); none is refused by the model. (40_command.md R154 and R149, 60_exceptions.md R233; derived)
That the fault carries the number of an undefined source word is the model's choice (log entry 7). -/
def Obligations.EveryCommandEnds : Prop :=
  ∀ (i : Instr) (s : State),
    (∃ t, exec i s = .next t) ∨
    (Accepted i s ∧ ∃ k, k < needSrc i ∧ readWord s.spm (s.src.toNat + k) = none ∧
      exec i s = .fault (.uninitRead (s.src.toNat + k)))

/-! ## What the commands compute -/

/-- PACK completes and writes word m of lane k, cut from the lane's masked bit stream, at index 4m + k. (R171) -/
def Obligations.PackWritesTheCanonicalWords : Prop :=
  ∀ (b : Nat) (s : State) (v : Nat → Word), Accepted (.pack b) s → HoldsSource s 128 v →
    ∃ t, exec (.pack b) s = .next t ∧ t = { s with err := 0, spm := t.spm } ∧
      (∀ k m, k < 4 → m < b →
        readWord t.spm (s.dst.toNat + (4 * m + k)) =
          some (BitVec.ofNat 32 (canonicalStream b v k / 2 ^ (32 * m)))) ∧
      ∀ a, OutsideWords s.dst.toNat (4 * b) a → readByte t.spm a = readByte s.spm a

/-- Bit by bit: P[j][t] = v[4(p div b) + k][p mod b] with p = 32m + t; no bit is padding. (R173) -/
def Obligations.PackedBitsAreValueBits : Prop :=
  ∀ (b : Nat) (s : State) (v : Nat → Word), Accepted (.pack b) s → HoldsSource s 128 v →
    ∃ t, exec (.pack b) s = .next t ∧
      ∀ j n, j < 4 * b → n < 32 →
        (32 * (j / 4) + n) / b ≤ 31 ∧
        ∃ w, readWord t.spm (s.dst.toNat + j) = some w ∧
          w.getLsbD n = (v (4 * ((32 * (j / 4) + n) / b) + j % 4)).getLsbD ((32 * (j / 4) + n) % b)

/-- Bits at positions b and above of a source value affect no output bit of PACK, and no value is refused. (R172) -/
def Obligations.PackDropsHighBits : Prop :=
  ∀ (b : Nat) (s : State) (m : Memory) (v v' : Nat → Word), Accepted (.pack b) s → HoldsSource s 128 v →
    HoldsSource { s with spm := m } 128 v' →
    (∀ i, i < 128 → (v i).toNat % 2 ^ b = (v' i).toNat % 2 ^ b) →
    ∃ t t', exec (.pack b) s = .next t ∧ exec (.pack b) { s with spm := m } = .next t' ∧
      t.err = 0 ∧ t'.err = 0 ∧
      ∀ j, j < 4 * b → ∃ w, readWord t.spm (s.dst.toNat + j) = some w ∧ readWord t'.spm (s.dst.toNat + j) = some w

/-- UNPACK completes and writes the 32 b-bit fields of each lane's stream, bit by bit as R191 says. (R191) -/
def Obligations.UnpackWritesTheFields : Prop :=
  ∀ (b : Nat) (s : State) (p : Nat → Word), Accepted (.unpack b) s → HoldsSource s (4 * b) p →
    ∃ t, exec (.unpack b) s = .next t ∧ t = { s with err := 0, spm := t.spm } ∧
      (∀ r k, r < 32 → k < 4 →
        readWord t.spm (s.dst.toNat + (4 * r + k)) =
          some (BitVec.ofNat 32 (packedStream b p k / 2 ^ (r * b) % 2 ^ b)) ∧
        ∃ w, readWord t.spm (s.dst.toNat + (4 * r + k)) = some w ∧
          ∀ n, n < 32 → w.getLsbD n =
            (decide (n < b) && (p (4 * ((r * b + n) / 32) + k)).getLsbD ((r * b + n) % 32))) ∧
      ∀ a, OutsideWords s.dst.toNat 128 a → readByte t.spm a = readByte s.spm a

/-- Every value UNPACK writes is below 2^b, and the mask at b = 32 is 0xFFFFFFFF. (R192) -/
def Obligations.UnpackedValuesFitTheWidth : Prop :=
  (∀ (b : Nat) (s t : State), exec (.unpack b) s = .next t → t.err = 0 →
      ∀ i, i < 128 → ∃ w, readWord t.spm (s.dst.toNat + i) = some w ∧ w.toNat < 2 ^ b) ∧
    (∀ b, mask b = 2 ^ b - 1) ∧ mask 32 = 0xFFFFFFFF

/-- UNPACK_DELTA completes and writes BASE plus the inclusive sum of the unpacked deltas, modulo 2^32. (R211) -/
def Obligations.UnpackDeltaWritesRunningSums : Prop :=
  ∀ (b : Nat) (s : State) (p : Nat → Word), Accepted (.unpackDelta b) s → HoldsSource s (4 * b) p →
    ∃ t, exec (.unpackDelta b) s = .next t ∧ t = { s with err := 0, spm := t.spm } ∧
      (∀ i, i < 128 →
        readWord t.spm (s.dst.toNat + i) =
          some (BitVec.ofNat 32 (s.base.toNat + ∑ n ∈ Finset.range (i + 1), packedField b p n))) ∧
      ∀ a, OutsideWords s.dst.toNat 128 a → readByte t.spm a = readByte s.spm a

/-- The corner cases of UNPACK_DELTA that R218 lists. (R218) -/
def Obligations.DeltaCornerCases : Prop :=
  ∀ (b : Nat) (s : State) (p : Nat → Word), Accepted (.unpackDelta b) s → HoldsSource s (4 * b) p →
    ∃ t, exec (.unpackDelta b) s = .next t ∧
      ((∀ n, n < 128 → packedField b p n = 0) →
        ∀ i, i < 128 → readWord t.spm (s.dst.toNat + i) = some s.base) ∧
      (b = 32 → ∀ i, i < 128 → packedField b p i = (p i).toNat ∧
        readWord t.spm (s.dst.toNat + i) =
          some (BitVec.ofNat 32 (s.base.toNat + ∑ n ∈ Finset.range (i + 1), (p n).toNat))) ∧
      (s.base = 0xFFFFFFFF → (∀ n, n < 128 → packedField b p n = 1) →
        ∀ i, i < 128 → readWord t.spm (s.dst.toNat + i) = some (BitVec.ofNat 32 i)) ∧
      readWord t.spm (s.dst.toNat + 127) =
        some (BitVec.ofNat 32 (s.base.toNat + ∑ n ∈ Finset.range 128, packedField b p n)) ∧
      (s.base.toNat + ∑ n ∈ Finset.range 128, packedField b p n < 2 ^ 32 →
        ∀ i j, i ≤ j → j < 128 → ∀ x y, readWord t.spm (s.dst.toNat + i) = some x →
          readWord t.spm (s.dst.toNat + j) = some y → x.toNat ≤ y.toNat)

/-- Each output of UNPACK_DELTA is the one before it plus its delta, across registers and from BASE, modulo 2^32. (43_unpack_delta.md R211, R214 and R215; derived) -/
def Obligations.RunningSumAddsOneDelta : Prop :=
  ∀ (b : Nat) (base : Word) (p : List Word),
    (deltaBlock b base p).getD 0 0 = base + (unpackBlock b p).getD 0 0 ∧
    ∀ i, i < 127 →
      (deltaBlock b base p).getD (i + 1) 0 = (deltaBlock b base p).getD i 0 + (unpackBlock b p).getD (i + 1) 0

/-- At b = 32 PACK and UNPACK copy the 128 words unchanged. (41_pack.md R177, 42_unpack.md R197, 90_conflicts.md C3; derived) -/
def Obligations.WidthThirtyTwoIsTheIdentity : Prop :=
  ∀ (s : State) (v : Nat → Word), HoldsSource s 128 v →
    (Accepted (.pack 32) s → ∃ t, exec (.pack 32) s = .next t ∧
      ∀ j, j < 128 → readWord t.spm (s.dst.toNat + j) = some (v j)) ∧
    (Accepted (.unpack 32) s → ∃ t, exec (.unpack 32) s = .next t ∧
      ∀ j, j < 128 → readWord t.spm (s.dst.toNat + j) = some (v j))

/-- The worked examples of PACK, UNPACK and UNPACK_DELTA come out as the source says. (R178, R198, R219) -/
def Obligations.WorkedExamplesOfTheSource : Prop :=
  (encode (.pack 2) = 0x00000201 ∧ ∀ s : State, Accepted (.pack 2) s → HoldsSource s 128 (fun _ => 3) →
      ∃ t, exec (.pack 2) s = .next t ∧ ∀ j, j < 8 → readWord t.spm (s.dst.toNat + j) = some 0xFFFFFFFF) ∧
    (encode (.unpack 2) = 0x00000202 ∧ ∀ s : State, Accepted (.unpack 2) s → HoldsSource s 8 (fun _ => 0xFFFFFFFF) →
      ∃ t, exec (.unpack 2) s = .next t ∧ ∀ i, i < 128 → readWord t.spm (s.dst.toNat + i) = some 3) ∧
    packBlock 2 ([1, 1, 1, 1] ++ List.replicate 124 0) = [1, 1, 1, 1, 0, 0, 0, 0] ∧
    (encode (.unpackDelta 2) = 0x00000203 ∧ ∀ s : State, Accepted (.unpackDelta 2) s → s.base = 10 →
      HoldsSource s 8 (fun j => if j < 4 then 1 else 0) →
      ∃ t, exec (.unpackDelta 2) s = .next t ∧
        ∀ i, i < 128 → readWord t.spm (s.dst.toNat + i) = some (if i < 4 then BitVec.ofNat 32 (11 + i) else 14))

/-! ## What the commands leave alone and depend on -/

/-- No command writes an argument CSR or a byte outside its destination; the same command again gives the same state. (R151) -/
def Obligations.CommandFrameAndRepetition : Prop :=
  ∀ (i : Instr) (s t : State), exec i s = .next t →
    t = { s with err := t.err, spm := t.spm } ∧
    (∀ a, OutsideWords s.dst.toNat s.dstLen.toNat a → readByte t.spm a = readByte s.spm a) ∧
    (Accepted i s → ∀ j, j < s.srcLen.toNat →
      readWord t.spm (s.src.toNat + j) = readWord s.spm (s.src.toNat + j)) ∧
    exec i t = .next t

/-- A command either succeeds with every destination word written, or fails with the scratchpad untouched. (40_command.md R150, 60_exceptions.md R237; derived) -/
def Obligations.CommandIsAllOrNothing : Prop :=
  ∀ (i : Instr) (s t : State), exec i s = .next t →
    (t.err = 0 ∧ ∀ m : Memory, (∀ j, j < s.srcLen.toNat →
        readWord m (s.src.toNat + j) = readWord s.spm (s.src.toNat + j)) →
      ∃ t', exec i { s with spm := m } = .next t' ∧
        ∀ j, j < s.dstLen.toNat → ∃ w, readWord t.spm (s.dst.toNat + j) = some w ∧
          readWord t'.spm (s.dst.toNat + j) = some w) ∨
    (t.err ≠ 0 ∧ t.spm = s.spm)

/-- A command's result depends only on its word, the five argument CSRs and the source words. (R152) -/
def Obligations.ResultDependsOnOperandsOnly : Prop :=
  ∀ (i : Instr) (s s' : State), s'.src = s.src → s'.srcLen = s.srcLen → s'.dst = s.dst →
    s'.dstLen = s.dstLen → s'.base = s.base →
    (∀ j, j < s.srcLen.toNat → readWord s'.spm (s.src.toNat + j) = readWord s.spm (s.src.toNat + j)) →
    (∀ f, exec i s = .fault f → exec i s' = .fault f) ∧
    ∀ t, exec i s = .next t → ∃ t', exec i s' = .next t' ∧ t'.err = t.err ∧
      (t.err = 0 → ∀ j, j < s.dstLen.toNat →
        readWord t'.spm (s.dst.toNat + j) = readWord t.spm (s.dst.toNat + j))

/-- PACK and UNPACK ignore BASE. (10_state.md R42, 41_pack.md R170, 42_unpack.md R190; derived) -/
def Obligations.BaseIsIgnoredByPackAndUnpack : Prop :=
  ∀ (b : Nat) (s : State) (x : Word) (i : Instr), i = .pack b ∨ i = .unpack b →
    (∀ t, exec i s = .next t → exec i { s with base := x } = .next { t with base := x }) ∧
    (∀ f, exec i s = .fault f → exec i { s with base := x } = .fault f)

/-- Byte +n of a written word is its bits [8n+7 : 8n]. (20_memory.md R78 and R79; derived) -/
def Obligations.WordsAreLittleEndianBytes : Prop :=
  ∀ (m : Memory) (w : Nat) (v : Word),
    readWord (writeWord m w v) w = some v ∧
    ∀ n, n < 4 → readByte (writeWord m w v) (4 * w + n) = some (BitVec.ofNat 8 (v.toNat / 2 ^ (8 * n)))

/-! ## Laws of the computations, and the invariant -/

/-- PACK and UNPACK invert each other at every width: round trip, truncation law, and no packed bit is padding. (R195) -/
def Obligations.PackAndUnpackAreInverse : Prop :=
  ∀ b : Nat, 1 ≤ b → b ≤ 32 →
    (∀ v : List Word, v.length = 128 →
      unpackBlock b (packBlock b v) = v.map (fun x => BitVec.ofNat 32 (x.toNat % 2 ^ b)) ∧
      ((∀ x ∈ v, x.toNat < 2 ^ b) → unpackBlock b (packBlock b v) = v)) ∧
    (∀ v v' : List Word, v.length = 128 → v'.length = 128 →
      (∀ i, i < 128 → (v.getD i 0).toNat % 2 ^ b = (v'.getD i 0).toNat % 2 ^ b) →
      unpackBlock b (packBlock b v) = unpackBlock b (packBlock b v')) ∧
    (∀ p : List Word, p.length = 4 * b → packBlock b (unpackBlock b p) = p)

/-- PACK and then UNPACK of what it wrote gives the source values modulo 2^b, for every placement of the buffers. (42_unpack.md R195, 95_test_vectors.md E6; derived) -/
def Obligations.RoundTripThroughTheScratchpad : Prop :=
  ∀ (b : Nat) (s : State) (v : Nat → Word), Accepted (.pack b) s → HoldsSource s 128 v →
    ∃ t, exec (.pack b) s = .next t ∧
      ∀ d : Word, let u : State := { t with src := s.dst, srcLen := s.dstLen, dst := d, dstLen := 128 }
        Accepted (.unpack b) u →
        ∃ w, exec (.unpack b) u = .next w ∧
          ∀ i, i < 128 → readWord w.spm (d.toNat + i) = some (BitVec.ofNat 32 ((v i).toNat % 2 ^ b))

/-- The prefix-decode law: decoding packed deltas gives the base plus their inclusive sums. (43_unpack_delta.md R211, 95_test_vectors.md E8; derived) -/
def Obligations.DeltaDecodeOfPackedDeltas : Prop :=
  ∀ (b : Nat) (base : Word) (d : List Word), 1 ≤ b → b ≤ 32 → d.length = 128 → ∀ i, i < 128 →
    (deltaBlock b base (packBlock b d)).getD i 0 =
      BitVec.ofNat 32 (base.toNat + ∑ n ∈ Finset.range (i + 1), (d.getD n 0).toNat % 2 ^ b)

/-- The source's scalar encoder, as written out in the model (log entry 12, DEDUCED), gives the closed form's words and leaves its accumulator empty. (41_pack.md R174 and R179; derived)
The algorithm's written-out form and its start are log entry 12 (DEDUCED). -/
def Obligations.ScalarEncoderAgreesWithClosedForm : Prop :=
  ∀ (b : Nat) (v : List Word), 1 ≤ b → b ≤ 32 → v.length = 128 →
    scalarPack b v = packBlock b v ∧
    ∀ k, k < 4 → (scalarPackLane b v k).off = 0 ∧ (scalarPackLane b v k).acc = 0 ∧ (scalarPackLane b v k).out.length = b

/-- The source's cursor decoder, as written out in the model (log entry 12, DEDUCED), gives the values of the closed form. (42_unpack.md R193; derived)
The algorithm's written-out form and its start are log entry 12 (DEDUCED). -/
def Obligations.ScalarDecoderAgreesWithClosedForm : Prop :=
  ∀ (b : Nat) (p : List Word), 1 ≤ b → b ≤ 32 → p.length = 4 * b → scalarUnpack b p = unpackBlock b p

/-- The four-lane datapath (as in log entry 12, DEDUCED) running PACK in lockstep gives the closed form's words, bit for bit. (40_command.md R153, 41_pack.md R175; derived)
The datapath's form and its start are log entry 12 (DEDUCED). -/
def Obligations.PackDatapathAgreesWithClosedForm : Prop :=
  ∀ (b : Nat) (v : List Word), 1 ≤ b → b ≤ 32 → v.length = 128 → packLanes b v = packBlock b v

/-- The four-lane datapath (as in log entry 12, DEDUCED) running UNPACK in lockstep gives the closed form's values, bit for bit. (40_command.md R153, 42_unpack.md R194; derived)
The datapath's form and its start are log entry 12 (DEDUCED). -/
def Obligations.UnpackDatapathAgreesWithClosedForm : Prop :=
  ∀ (b : Nat) (p : List Word), 1 ≤ b → b ≤ 32 → p.length = 4 * b → unpackLanes b p = unpackBlock b p

/-- The shift-and-add lanes with the carry across registers (as in log entry 12, DEDUCED) give the inclusive running sums, bit for bit. (40_command.md R153, 43_unpack_delta.md R212 to R214; derived)
The datapath's form and its start are log entry 12 (DEDUCED). -/
def Obligations.DeltaDatapathAgreesWithClosedForm : Prop :=
  ∀ (b : Nat) (base : Word) (p : List Word), 1 ≤ b → b ≤ 32 → p.length = 4 * b →
    deltaLanes b base p = deltaBlock b base p

/-- The invariant holds after reset. (10_state.md R45, 60_exceptions.md R230; derived) -/
def Obligations.ResetMeetsTheInvariant : Prop :=
  Inv State.reset

/-- Every step from a state that meets the invariant gives one that meets it. (10_state.md R44, R45 and R48, 20_memory.md R80, 60_exceptions.md R230; derived) -/
def Obligations.EveryStepKeepsTheInvariant : Prop :=
  ∀ s t : State, Inv s → step s = .next t → Inv t

/-- A scratchpad that meets the invariant is exactly R48's SPM and def, indexed by Fin SPM_WORDS (how it is kept: log entries 2, 4). (10_state.md R44, R45 and R48; derived)
That the scratchpad is kept as a list of bytes keyed by a natural number is the model's choice (log entries 2 and 4). -/
def Obligations.ScratchpadIsOneOptionalWordPerIndex : Prop :=
  (∀ s t : State, Inv s → Inv t →
      (∀ w : Fin Config.spmWords, s.spmAt w = t.spmAt w) → s.spm = t.spm) ∧
    ∀ (s : State) (f : Fin Config.spmWords → Option Word), s.err.toNat ≤ 5 →
      ∃ m : Memory, Inv { s with spm := m } ∧
        ∀ w : Fin Config.spmWords, State.spmAt { s with spm := m } w = f w ∧
          State.definedAt { s with spm := m } w = (f w).isSome
end

