-- ==== Sys2Proof/Laws/State.lean ====
section
/-! SUPPORT. One lemma per field per update of State, so that no later proof unfolds an update; the bounds on
`SPM_WORDS`. -/

namespace Sys2Proof.Config

/-- `SPM_WORDS` is at least 256 (R7, R44). -/
theorem spmWords_ge : 256 ≤ spmWords := by
  unfold spmWords; exact Nat.le_add_left _ _

/-- `SPM_WORDS` fits the 32 bits of SPM_SIZE (log entry 3). -/
theorem spmWords_lt : spmWords < 2 ^ 32 := by
  unfold spmWords; exact Nat.add_lt_add_right extraSpmWords.isLt 256

end Sys2Proof.Config

namespace Sys2Proof.Machine

@[simp] theorem State.withCmd_cmd (s : State) (v : Word) : (s.withCmd v).cmd = v := rfl
@[simp] theorem State.withCmd_err (s : State) (v : Word) : (s.withCmd v).err = s.err := rfl
@[simp] theorem State.withCmd_src (s : State) (v : Word) : (s.withCmd v).src = s.src := rfl
@[simp] theorem State.withCmd_srcLen (s : State) (v : Word) : (s.withCmd v).srcLen = s.srcLen := rfl
@[simp] theorem State.withCmd_dst (s : State) (v : Word) : (s.withCmd v).dst = s.dst := rfl
@[simp] theorem State.withCmd_dstLen (s : State) (v : Word) : (s.withCmd v).dstLen = s.dstLen := rfl
@[simp] theorem State.withCmd_base (s : State) (v : Word) : (s.withCmd v).base = s.base := rfl
@[simp] theorem State.withCmd_spm (s : State) (v : Word) : (s.withCmd v).spm = s.spm := rfl
@[simp] theorem State.withCmd_pending (s : State) (v : Word) : (s.withCmd v).pending = s.pending := rfl
@[simp] theorem State.withCmd_responses (s : State) (v : Word) : (s.withCmd v).responses = s.responses := rfl

@[simp] theorem State.withErr_cmd (s : State) (e : BitVec 4) : (s.withErr e).cmd = s.cmd := rfl
@[simp] theorem State.withErr_err (s : State) (e : BitVec 4) : (s.withErr e).err = e := rfl
@[simp] theorem State.withErr_src (s : State) (e : BitVec 4) : (s.withErr e).src = s.src := rfl
@[simp] theorem State.withErr_srcLen (s : State) (e : BitVec 4) : (s.withErr e).srcLen = s.srcLen := rfl
@[simp] theorem State.withErr_dst (s : State) (e : BitVec 4) : (s.withErr e).dst = s.dst := rfl
@[simp] theorem State.withErr_dstLen (s : State) (e : BitVec 4) : (s.withErr e).dstLen = s.dstLen := rfl
@[simp] theorem State.withErr_base (s : State) (e : BitVec 4) : (s.withErr e).base = s.base := rfl
@[simp] theorem State.withErr_spm (s : State) (e : BitVec 4) : (s.withErr e).spm = s.spm := rfl
@[simp] theorem State.withErr_pending (s : State) (e : BitVec 4) : (s.withErr e).pending = s.pending := rfl
@[simp] theorem State.withErr_responses (s : State) (e : BitVec 4) : (s.withErr e).responses = s.responses := rfl

@[simp] theorem State.withSrc_cmd (s : State) (v : Word) : (s.withSrc v).cmd = s.cmd := rfl
@[simp] theorem State.withSrc_err (s : State) (v : Word) : (s.withSrc v).err = s.err := rfl
@[simp] theorem State.withSrc_src (s : State) (v : Word) : (s.withSrc v).src = v := rfl
@[simp] theorem State.withSrc_srcLen (s : State) (v : Word) : (s.withSrc v).srcLen = s.srcLen := rfl
@[simp] theorem State.withSrc_dst (s : State) (v : Word) : (s.withSrc v).dst = s.dst := rfl
@[simp] theorem State.withSrc_dstLen (s : State) (v : Word) : (s.withSrc v).dstLen = s.dstLen := rfl
@[simp] theorem State.withSrc_base (s : State) (v : Word) : (s.withSrc v).base = s.base := rfl
@[simp] theorem State.withSrc_spm (s : State) (v : Word) : (s.withSrc v).spm = s.spm := rfl
@[simp] theorem State.withSrc_pending (s : State) (v : Word) : (s.withSrc v).pending = s.pending := rfl
@[simp] theorem State.withSrc_responses (s : State) (v : Word) : (s.withSrc v).responses = s.responses := rfl

@[simp] theorem State.withSrcLen_cmd (s : State) (v : Word) : (s.withSrcLen v).cmd = s.cmd := rfl
@[simp] theorem State.withSrcLen_err (s : State) (v : Word) : (s.withSrcLen v).err = s.err := rfl
@[simp] theorem State.withSrcLen_src (s : State) (v : Word) : (s.withSrcLen v).src = s.src := rfl
@[simp] theorem State.withSrcLen_srcLen (s : State) (v : Word) : (s.withSrcLen v).srcLen = v := rfl
@[simp] theorem State.withSrcLen_dst (s : State) (v : Word) : (s.withSrcLen v).dst = s.dst := rfl
@[simp] theorem State.withSrcLen_dstLen (s : State) (v : Word) : (s.withSrcLen v).dstLen = s.dstLen := rfl
@[simp] theorem State.withSrcLen_base (s : State) (v : Word) : (s.withSrcLen v).base = s.base := rfl
@[simp] theorem State.withSrcLen_spm (s : State) (v : Word) : (s.withSrcLen v).spm = s.spm := rfl
@[simp] theorem State.withSrcLen_pending (s : State) (v : Word) : (s.withSrcLen v).pending = s.pending := rfl
@[simp] theorem State.withSrcLen_responses (s : State) (v : Word) : (s.withSrcLen v).responses = s.responses := rfl

@[simp] theorem State.withDst_cmd (s : State) (v : Word) : (s.withDst v).cmd = s.cmd := rfl
@[simp] theorem State.withDst_err (s : State) (v : Word) : (s.withDst v).err = s.err := rfl
@[simp] theorem State.withDst_src (s : State) (v : Word) : (s.withDst v).src = s.src := rfl
@[simp] theorem State.withDst_srcLen (s : State) (v : Word) : (s.withDst v).srcLen = s.srcLen := rfl
@[simp] theorem State.withDst_dst (s : State) (v : Word) : (s.withDst v).dst = v := rfl
@[simp] theorem State.withDst_dstLen (s : State) (v : Word) : (s.withDst v).dstLen = s.dstLen := rfl
@[simp] theorem State.withDst_base (s : State) (v : Word) : (s.withDst v).base = s.base := rfl
@[simp] theorem State.withDst_spm (s : State) (v : Word) : (s.withDst v).spm = s.spm := rfl
@[simp] theorem State.withDst_pending (s : State) (v : Word) : (s.withDst v).pending = s.pending := rfl
@[simp] theorem State.withDst_responses (s : State) (v : Word) : (s.withDst v).responses = s.responses := rfl

@[simp] theorem State.withDstLen_cmd (s : State) (v : Word) : (s.withDstLen v).cmd = s.cmd := rfl
@[simp] theorem State.withDstLen_err (s : State) (v : Word) : (s.withDstLen v).err = s.err := rfl
@[simp] theorem State.withDstLen_src (s : State) (v : Word) : (s.withDstLen v).src = s.src := rfl
@[simp] theorem State.withDstLen_srcLen (s : State) (v : Word) : (s.withDstLen v).srcLen = s.srcLen := rfl
@[simp] theorem State.withDstLen_dst (s : State) (v : Word) : (s.withDstLen v).dst = s.dst := rfl
@[simp] theorem State.withDstLen_dstLen (s : State) (v : Word) : (s.withDstLen v).dstLen = v := rfl
@[simp] theorem State.withDstLen_base (s : State) (v : Word) : (s.withDstLen v).base = s.base := rfl
@[simp] theorem State.withDstLen_spm (s : State) (v : Word) : (s.withDstLen v).spm = s.spm := rfl
@[simp] theorem State.withDstLen_pending (s : State) (v : Word) : (s.withDstLen v).pending = s.pending := rfl
@[simp] theorem State.withDstLen_responses (s : State) (v : Word) : (s.withDstLen v).responses = s.responses := rfl

@[simp] theorem State.withBase_cmd (s : State) (v : Word) : (s.withBase v).cmd = s.cmd := rfl
@[simp] theorem State.withBase_err (s : State) (v : Word) : (s.withBase v).err = s.err := rfl
@[simp] theorem State.withBase_src (s : State) (v : Word) : (s.withBase v).src = s.src := rfl
@[simp] theorem State.withBase_srcLen (s : State) (v : Word) : (s.withBase v).srcLen = s.srcLen := rfl
@[simp] theorem State.withBase_dst (s : State) (v : Word) : (s.withBase v).dst = s.dst := rfl
@[simp] theorem State.withBase_dstLen (s : State) (v : Word) : (s.withBase v).dstLen = s.dstLen := rfl
@[simp] theorem State.withBase_base (s : State) (v : Word) : (s.withBase v).base = v := rfl
@[simp] theorem State.withBase_spm (s : State) (v : Word) : (s.withBase v).spm = s.spm := rfl
@[simp] theorem State.withBase_pending (s : State) (v : Word) : (s.withBase v).pending = s.pending := rfl
@[simp] theorem State.withBase_responses (s : State) (v : Word) : (s.withBase v).responses = s.responses := rfl

@[simp] theorem State.withSpm_cmd (s : State) (m : Memory) : (s.withSpm m).cmd = s.cmd := rfl
@[simp] theorem State.withSpm_err (s : State) (m : Memory) : (s.withSpm m).err = s.err := rfl
@[simp] theorem State.withSpm_src (s : State) (m : Memory) : (s.withSpm m).src = s.src := rfl
@[simp] theorem State.withSpm_srcLen (s : State) (m : Memory) : (s.withSpm m).srcLen = s.srcLen := rfl
@[simp] theorem State.withSpm_dst (s : State) (m : Memory) : (s.withSpm m).dst = s.dst := rfl
@[simp] theorem State.withSpm_dstLen (s : State) (m : Memory) : (s.withSpm m).dstLen = s.dstLen := rfl
@[simp] theorem State.withSpm_base (s : State) (m : Memory) : (s.withSpm m).base = s.base := rfl
@[simp] theorem State.withSpm_spm (s : State) (m : Memory) : (s.withSpm m).spm = m := rfl
@[simp] theorem State.withSpm_pending (s : State) (m : Memory) : (s.withSpm m).pending = s.pending := rfl
@[simp] theorem State.withSpm_responses (s : State) (m : Memory) : (s.withSpm m).responses = s.responses := rfl

@[simp] theorem State.withPending_cmd (s : State) (es : List HostEvent) : (s.withPending es).cmd = s.cmd := rfl
@[simp] theorem State.withPending_err (s : State) (es : List HostEvent) : (s.withPending es).err = s.err := rfl
@[simp] theorem State.withPending_src (s : State) (es : List HostEvent) : (s.withPending es).src = s.src := rfl
@[simp] theorem State.withPending_srcLen (s : State) (es : List HostEvent) : (s.withPending es).srcLen = s.srcLen := rfl
@[simp] theorem State.withPending_dst (s : State) (es : List HostEvent) : (s.withPending es).dst = s.dst := rfl
@[simp] theorem State.withPending_dstLen (s : State) (es : List HostEvent) : (s.withPending es).dstLen = s.dstLen := rfl
@[simp] theorem State.withPending_base (s : State) (es : List HostEvent) : (s.withPending es).base = s.base := rfl
@[simp] theorem State.withPending_spm (s : State) (es : List HostEvent) : (s.withPending es).spm = s.spm := rfl
@[simp] theorem State.withPending_pending (s : State) (es : List HostEvent) : (s.withPending es).pending = es := rfl
@[simp] theorem State.withPending_responses (s : State) (es : List HostEvent) : (s.withPending es).responses = s.responses := rfl

@[simp] theorem State.respond_cmd (s : State) (r : Response) : (s.respond r).cmd = s.cmd := rfl
@[simp] theorem State.respond_err (s : State) (r : Response) : (s.respond r).err = s.err := rfl
@[simp] theorem State.respond_src (s : State) (r : Response) : (s.respond r).src = s.src := rfl
@[simp] theorem State.respond_srcLen (s : State) (r : Response) : (s.respond r).srcLen = s.srcLen := rfl
@[simp] theorem State.respond_dst (s : State) (r : Response) : (s.respond r).dst = s.dst := rfl
@[simp] theorem State.respond_dstLen (s : State) (r : Response) : (s.respond r).dstLen = s.dstLen := rfl
@[simp] theorem State.respond_base (s : State) (r : Response) : (s.respond r).base = s.base := rfl
@[simp] theorem State.respond_spm (s : State) (r : Response) : (s.respond r).spm = s.spm := rfl
@[simp] theorem State.respond_pending (s : State) (r : Response) : (s.respond r).pending = s.pending := rfl
@[simp] theorem State.respond_responses (s : State) (r : Response) : (s.respond r).responses = s.responses ++ [r] := rfl

@[simp] theorem resetInput_cmd (s : State) : (resetInput s).cmd = 0 := rfl
@[simp] theorem resetInput_err (s : State) : (resetInput s).err = 0 := rfl
@[simp] theorem resetInput_src (s : State) : (resetInput s).src = 0 := rfl
@[simp] theorem resetInput_srcLen (s : State) : (resetInput s).srcLen = 0 := rfl
@[simp] theorem resetInput_dst (s : State) : (resetInput s).dst = 0 := rfl
@[simp] theorem resetInput_dstLen (s : State) : (resetInput s).dstLen = 0 := rfl
@[simp] theorem resetInput_base (s : State) : (resetInput s).base = 0 := rfl
@[simp] theorem resetInput_spm (s : State) : (resetInput s).spm = [] := rfl
@[simp] theorem resetInput_pending (s : State) : (resetInput s).pending = s.pending := rfl
@[simp] theorem resetInput_responses (s : State) : (resetInput s).responses = s.responses := rfl

@[simp] theorem State.withSpm_spmAt (s : State) (m : Memory) (w : Fin Config.spmWords) :
    (s.withSpm m).spmAt w = readWord m w := rfl
@[simp] theorem resetInput_spmAt (s : State) (w : Fin Config.spmWords) : (resetInput s).spmAt w = none := rfl

/-- A word is defined exactly when it has a value (R45). -/
theorem State.definedAt_eq (s : State) (w : Fin Config.spmWords) : s.definedAt w = (s.spmAt w).isSome := rfl

/-- SPM_SIZE reads `SPM_WORDS` (R43). -/
@[simp] theorem toNat_readCsr_spmSize (s : State) : (readCsr s .spmSize).toNat = Config.spmWords :=
  (BitVec.toNat_ofNat ..).trans (Nat.mod_eq_of_lt Config.spmWords_lt)

/-- Every state with a next event `e` is one to which it was put. -/
theorem State.eq_withPending_of_pending (s : State) (es : List HostEvent) (h : s.pending = es) :
    s = s.withPending es := by
  cases s; simp_all [State.withPending]

@[simp] theorem State.withPending_withPending (s : State) (es es' : List HostEvent) :
    (s.withPending es).withPending es' = s.withPending es' := rfl

end Sys2Proof.Machine
end

