-- ==== Sys2Proof/Laws/Memory.lean ====
section
/-! SUPPORT. What the scratchpad's operations do: reading a byte, a word or a buffer after a write, and that every
write keeps the canonical form. -/

namespace Sys2Proof.Machine

/-! ## Bytes -/

@[simp] theorem readByte_nil (a : Nat) : readByte [] a = none := rfl

theorem readByte_cons (c : Host.Cell) (m : Memory) (a : Nat) :
    readByte (c :: m) a = if c.1 = a then some c.2 else readByte m a := by
  by_cases h : c.1 = a
  · simp [readByte, h]
  · have : Nat.beq c.1 a = false := Bool.eq_false_iff.2 fun e => h (Nat.eq_of_beq_eq_true e)
    simp [readByte, h, this]

theorem readByte_append (m n : Memory) (a : Nat) :
    readByte (m ++ n) a = (readByte m a).or (readByte n a) := by
  induction m with
  | nil => simp
  | cons c m ih =>
    simp only [List.cons_append, readByte_cons, ih]
    split <;> simp

/-- Keeping the cells whose address meets `p` keeps the bytes at those addresses and drops the others. -/
theorem readByte_filter (p : Nat → Bool) (m : Memory) (a : Nat) :
    readByte (m.filter fun c => p c.1) a = if p a then readByte m a else none := by
  induction m with
  | nil => simp
  | cons c m ih =>
    by_cases hc : p c.1 <;> by_cases ha : c.1 = a
    · subst ha; simp [readByte_cons, hc]
    · simp [readByte_cons, hc, ha, ih]
    · subst ha; simp [hc, ih]
    · simp [readByte_cons, hc, ha, ih]

theorem readByte_cellsAt (bs : List Byte) (x a : Nat) :
    readByte (cellsAt x bs) a = if x ≤ a then bs[a - x]? else none := by
  induction bs generalizing x with
  | nil => simp [cellsAt]
  | cons b bs ih =>
    rw [cellsAt, readByte_cons, ih]
    rcases Nat.lt_trichotomy x a with h | h | h
    · obtain ⟨k, rfl⟩ := Nat.exists_eq_add_of_lt h
      have e : x + k + 1 - x = k + 1 := by omega
      have e' : x + k + 1 - (x + 1) = k := by omega
      rw [if_neg (by simp only; omega), if_pos (by omega), if_pos (by omega), e, e', List.getElem?_cons_succ]
    · subst h; simp
    · rw [if_neg (by simp only; omega), if_neg (by omega), if_neg (by omega)]

/-- A byte read after a write of `bs` from `x` on: the byte written where one was, the old one elsewhere. -/
theorem readByte_writeBytes (m : Memory) (x : Nat) (bs : List Byte) (a : Nat) :
    readByte (writeBytes m x bs) a =
      if x ≤ a ∧ a < x + bs.length then bs[a - x]? else readByte m a := by
  have hlo := readByte_filter (fun n => decide (n < x)) m a
  have hhi := readByte_filter (fun n => decide (x + bs.length ≤ n)) m a
  rw [writeBytes, readByte_append, readByte_append, readByte_cellsAt]
  rw [hlo, hhi]
  by_cases h1 : a < x
  · simp [h1, show ¬ x ≤ a by omega, show ¬ x + bs.length ≤ a by omega]
  · by_cases h2 : a < x + bs.length
    · simp [h1, h2, show x ≤ a by omega, show ¬ x + bs.length ≤ a by omega]
    · have hget : bs[a - x]? = none := List.getElem?_eq_none (by omega)
      simp only [decide_eq_true_eq, h1, h2, show x ≤ a by omega, show x + bs.length ≤ a by omega, hget,
        if_true, if_false, and_false, Option.none_or]

/-! ## Canonical form -/

theorem mem_cellsAt {bs : List Byte} {x : Nat} {c : Host.Cell} (h : c ∈ cellsAt x bs) :
    x ≤ c.1 ∧ c.1 < x + bs.length := by
  induction bs generalizing x with
  | nil => simp [cellsAt] at h
  | cons b bs ih =>
    rw [cellsAt, List.mem_cons] at h
    simp only [List.length_cons]
    rcases h with rfl | h
    · simp
    · have := ih h; omega

theorem cellsAt_wf (bs : List Byte) (x : Nat) : (cellsAt x bs).wf := by
  induction bs generalizing x with
  | nil => simp [cellsAt]
  | cons b bs ih =>
    rw [cellsAt]
    exact List.Pairwise.cons (fun c hc => by have := mem_cellsAt hc; simp only; omega) (ih _)

/-- Every write keeps the canonical form. -/
theorem writeBytes_wf {m : Memory} (h : m.wf) (x : Nat) (bs : List Byte) : (writeBytes m x bs).wf := by
  rw [writeBytes, Memory.wf, List.pairwise_append, List.pairwise_append]
  refine ⟨⟨h.filter _, cellsAt_wf _ _, ?_⟩, h.filter _, ?_⟩
  · intro c hc d hd
    have h1 := (List.mem_filter.1 hc).2
    have h2 := mem_cellsAt hd
    simp only [decide_eq_true_eq] at h1
    omega
  · intro c hc d hd
    have h1 := (List.mem_filter.1 hd).2
    simp only [decide_eq_true_eq] at h1
    rcases List.mem_append.1 hc with hc | hc
    · have h2 := (List.mem_filter.1 hc).2
      simp only [decide_eq_true_eq] at h2
      omega
    · have h2 := mem_cellsAt hc
      omega

theorem mem_writeBytes {m : Memory} {x : Nat} {bs : List Byte} {c : Host.Cell} (h : c ∈ writeBytes m x bs) :
    (c ∈ m ∧ (c.1 < x ∨ x + bs.length ≤ c.1)) ∨ (x ≤ c.1 ∧ c.1 < x + bs.length) := by
  simp only [writeBytes, List.mem_append, List.mem_filter, decide_eq_true_eq] at h
  rcases h with (h | h) | h
  · exact .inl ⟨h.1, .inl h.2⟩
  · exact .inr (mem_cellsAt h)
  · exact .inl ⟨h.1, .inr h.2⟩

/-- A byte that no entry lists has no value. -/
theorem readByte_eq_none {m : Memory} {a : Nat} (h : ∀ c ∈ m, c.1 ≠ a) : readByte m a = none := by
  induction m with
  | nil => rfl
  | cons c m ih =>
    rw [readByte_cons, if_neg (h c (by simp))]
    exact ih fun d hd => h d (by simp [hd])

/-- In canonical form, memories whose bytes read alike are the same list. -/
theorem Memory.ext_of_wf {m m' : Memory} (h : m.wf) (h' : m'.wf) (heq : ∀ a, readByte m a = readByte m' a) :
    m = m' := by
  induction m generalizing m' with
  | nil =>
    cases m' with
    | nil => rfl
    | cons d m' => simpa [readByte_cons, readByte, unlistedByte] using heq d.1
  | cons c m ih =>
    cases m' with
    | nil => simpa [readByte_cons, readByte, unlistedByte] using heq c.1
    | cons d m' =>
      obtain ⟨hc, hm⟩ := List.pairwise_cons.1 h
      obtain ⟨hd, hm'⟩ := List.pairwise_cons.1 h'
      have nc : readByte m c.1 = none := readByte_eq_none fun x hx => (hc x hx).ne'
      have nd : readByte m' d.1 = none := readByte_eq_none fun x hx => (hd x hx).ne'
      have key : c.1 = d.1 := by
        rcases Nat.lt_trichotomy c.1 d.1 with hlt | he | hlt
        · have := heq c.1
          rw [readByte_cons, if_pos rfl, readByte_cons, if_neg hlt.ne',
            readByte_eq_none fun x hx => (hlt.trans (hd x hx)).ne'] at this
          cases this
        · exact he
        · have := heq d.1
          rw [readByte_cons, readByte_cons, if_pos rfl, if_neg hlt.ne',
            readByte_eq_none fun x hx => (hlt.trans (hc x hx)).ne'] at this
          cases this
      have hcd : c = d := by
        have := heq c.1
        rw [readByte_cons, if_pos rfl, readByte_cons, if_pos key.symm] at this
        exact Prod.ext key (Option.some.inj this)
      subst hcd
      congr 1
      refine ih hm hm' fun a => ?_
      by_cases ha : c.1 = a
      · rw [← ha, nc, nd]
      · simpa [readByte_cons, ha] using heq a

theorem writeWords_wf {m : Memory} (h : m.wf) (w : Nat) (vs : List Word) : (writeWords m w vs).wf :=
  writeBytes_wf h _ _

theorem writeWord_wf {m : Memory} (h : m.wf) (w : Nat) (v : Word) : (writeWord m w v).wf :=
  writeWords_wf h _ _

theorem reset_spm_wf : State.reset.spm.wf := List.Pairwise.nil

/-! ## Words -/

/-- A word's four bytes, put together again, are the word. -/
theorem wordOfBytes_wordBytes (v : Word) :
    wordOfBytes (v.extractLsb 7 0) (v.extractLsb 15 8) (v.extractLsb 23 16) (v.extractLsb 31 24) = v := by
  apply BitVec.eq_of_getLsbD_eq
  intro i hi
  simp only [wordOfBytes, BitVec.getLsbD_append, BitVec.getLsbD_extractLsb]
  by_cases h1 : i < 8
  · simp [h1]
  · by_cases h2 : i - 8 < 8
    · simp [h1, h2, show 8 + (i - 8) = i by omega]
    · by_cases h3 : i - 8 - 8 < 8
      · simp [h1, h2, h3, show 16 + (i - 8 - 8) = i by omega]
      · simp [h1, h2, h3, show 24 + (i - 8 - 8 - 8) = i by omega, show i - 8 - 8 - 8 < 8 by omega]

@[simp] theorem length_wordBytes (v : Word) : (wordBytes v).length = 4 := rfl

@[simp] theorem length_flatMap_wordBytes (vs : List Word) : (vs.flatMap wordBytes).length = 4 * vs.length := by
  induction vs with
  | nil => rfl
  | cons v vs ih => simp [List.flatMap_cons, ih]; omega

/-- Byte `n` of word `j` of a buffer's bytes. -/
theorem flatMap_wordBytes_get (vs : List Word) (j n : Nat) (hn : n < 4) :
    (vs.flatMap wordBytes)[4 * j + n]? = vs[j]?.bind fun v => (wordBytes v)[n]? := by
  induction vs generalizing j with
  | nil => simp
  | cons v vs ih =>
    rw [List.flatMap_cons]
    cases j with
    | zero => rw [List.getElem?_append_left (by simp; omega)]; simp
    | succ j =>
      rw [List.getElem?_append_right (by simp; omega)]
      have : 4 * (j + 1) + n - (wordBytes v).length = 4 * j + n := by simp; omega
      rw [this, ih, List.getElem?_cons_succ]

/-- Reading a word depends on its four bytes only. -/
theorem readWord_congr {m m' : Memory} {w : Nat}
    (h : ∀ n, n < 4 → readByte m (4 * w + n) = readByte m' (4 * w + n)) : readWord m w = readWord m' w := by
  have h0 := h 0 (by omega)
  have h1 := h 1 (by omega)
  have h2 := h 2 (by omega)
  have h3 := h 3 (by omega)
  simp only [readWord, wordAddr]
  rw [← h1, ← h2, ← h3]
  simp only [Nat.add_zero] at h0
  rw [← h0]

/-- A write of a buffer leaves every byte outside its words alone. -/
theorem readByte_writeWords_outside (m : Memory) (w : Nat) (vs : List Word) {a : Nat}
    (h : OutsideWords w vs.length a) : readByte (writeWords m w vs) a = readByte m a := by
  rw [writeWords, readByte_writeBytes, length_flatMap_wordBytes, if_neg]
  simp only [wordAddr]
  rcases h with h | h <;> omega

/-- A word of a buffer reads as written. -/
theorem readWord_writeWords (m : Memory) (w : Nat) (vs : List Word) {j : Nat} (h : j < vs.length) :
    readWord (writeWords m w vs) (w + j) = some vs[j] := by
  have byte (n : Nat) (hn : n < 4) :
      readByte (writeWords m w vs) (4 * (w + j) + n) = (wordBytes vs[j])[n]? := by
    rw [writeWords, readByte_writeBytes, length_flatMap_wordBytes, if_pos (by simp only [wordAddr]; omega)]
    have : 4 * (w + j) + n - wordAddr w = 4 * j + n := by simp only [wordAddr]; omega
    rw [this, flatMap_wordBytes_get _ _ _ hn, List.getElem?_eq_getElem h]
    rfl
  have b0 := byte 0 (by omega)
  have b1 := byte 1 (by omega)
  have b2 := byte 2 (by omega)
  have b3 := byte 3 (by omega)
  simp only [Nat.add_zero] at b0
  simp only [readWord, wordAddr, b0, b1, b2, b3]
  simp only [wordBytes, List.getElem?_cons_zero, List.getElem?_cons_succ]
  rw [wordOfBytes_wordBytes]

/-- A write of a buffer leaves every other word alone. -/
theorem readWord_writeWords_outside (m : Memory) (w : Nat) (vs : List Word) {x : Nat}
    (h : x < w ∨ w + vs.length ≤ x) : readWord (writeWords m w vs) x = readWord m x :=
  readWord_congr fun n hn => readByte_writeWords_outside m w vs (by rcases h with h | h; exacts [.inl (by omega), .inr (by omega)])

/-! ## Buffers -/

/-- The read phase answers the buffer's words exactly when all of them are defined. -/
theorem readWords_eq_ok_iff (m : Memory) (w n : Nat) (vs : List Word) :
    readWords m w n = .ok vs ↔ vs.length = n ∧ ∀ j (h : j < vs.length), readWord m (w + j) = some vs[j] := by
  induction n generalizing w vs with
  | zero => cases vs <;> simp [readWords]
  | succ n ih =>
    rw [readWords]
    cases hw : readWord m w with
    | none =>
      simp only [reduceCtorEq, false_iff, not_and, not_forall]
      intro hl
      exact ⟨0, by omega, by simp [hw]⟩
    | some v =>
      cases vs with
      | nil => cases readWords m (w + 1) n <;> simp
      | cons x xs =>
        have := ih (w + 1) xs
        cases hr : readWords m (w + 1) n with
        | error f =>
          simp only [hr, reduceCtorEq, false_iff] at this ⊢
          rintro ⟨hl, h⟩
          refine this ⟨by simpa using hl, fun j hj => ?_⟩
          have := h (j + 1) (by simpa using hj)
          rwa [List.getElem_cons_succ, show w + (j + 1) = w + 1 + j by omega] at this
        | ok ys =>
          simp only [hr, Except.ok.injEq, List.cons.injEq, List.length_cons, Nat.add_right_cancel_iff] at this ⊢
          constructor
          · rintro ⟨rfl, rfl⟩
            refine ⟨(this.1 rfl).1, fun j hj => ?_⟩
            cases j with
            | zero => simpa using hw
            | succ j =>
              rw [List.getElem_cons_succ, show w + (j + 1) = w + 1 + j by omega]
              exact (this.1 rfl).2 j (by simpa using hj)
          · rintro ⟨hl, h⟩
            have h0 := h 0 (by omega)
            refine ⟨by simpa [hw] using h0, this.2 ⟨hl, fun j hj => ?_⟩⟩
            have := h (j + 1) (by omega)
            rwa [List.getElem_cons_succ, show w + (j + 1) = w + 1 + j by omega] at this

/-- The read phase stops at the first undefined word of the buffer. -/
theorem readWords_eq_error_iff (m : Memory) (w n : Nat) (f : Fault) :
    readWords m w n = .error f ↔
      ∃ k, k < n ∧ f = .uninitRead (w + k) ∧ readWord m (w + k) = none ∧
        ∀ j, j < k → readWord m (w + j) ≠ none := by
  induction n generalizing w with
  | zero => simp [readWords]
  | succ n ih =>
    rw [readWords]
    cases hw : readWord m w with
    | none =>
      simp only [Except.error.injEq]
      constructor
      · rintro rfl; exact ⟨0, by omega, by simp, by simpa using hw, by simp⟩
      · rintro ⟨k, -, rfl, -, hj⟩
        rcases Nat.eq_zero_or_pos k with rfl | hk
        · simp
        · exact absurd (by simpa using hw) (hj 0 hk)
    | some v =>
      have ih' := ih (w + 1)
      have key : (∃ k, k < n + 1 ∧ f = .uninitRead (w + k) ∧ readWord m (w + k) = none ∧
          ∀ j, j < k → readWord m (w + j) ≠ none) ↔
          ∃ k, k < n ∧ f = .uninitRead (w + 1 + k) ∧ readWord m (w + 1 + k) = none ∧
            ∀ j, j < k → readWord m (w + 1 + j) ≠ none := by
        constructor
        · rintro ⟨k, hk, hf, hn, hj⟩
          cases k with
          | zero => simp [hw] at hn
          | succ k =>
            refine ⟨k, by omega, by rw [hf]; congr 1; omega, by rwa [show w + 1 + k = w + (k + 1) by omega], ?_⟩
            intro j hjk
            rw [show w + 1 + j = w + (j + 1) by omega]
            exact hj (j + 1) (by omega)
        · rintro ⟨k, hk, hf, hn, hj⟩
          refine ⟨k + 1, by omega, by rw [hf]; congr 1; omega, by rwa [show w + (k + 1) = w + 1 + k by omega], ?_⟩
          intro j hjk
          cases j with
          | zero => simp [hw]
          | succ j =>
            rw [show w + (j + 1) = w + 1 + j by omega]
            exact hj j (by omega)
      rw [key, ← ih']
      cases readWords m (w + 1) n <;> simp

end Sys2Proof.Machine
end

