-- ==== Sys2Proof/Laws/Command.lean ====
section
/-! SUPPORT. What a command can do: the entry checks as `Accepted`, the three ways a command ends, and the sizes of
what the compute phases answer. -/

namespace Sys2Proof.Machine

@[simp] theorem length_packBlock (b : Nat) (v : List Word) : (packBlock b v).length = 4 * b := by
  simp [packBlock, Config.packedWords, Config.lanes]

@[simp] theorem length_unpackBlock (b : Nat) (p : List Word) : (unpackBlock b p).length = 128 := by
  simp [unpackBlock, Config.block]

@[simp] theorem length_deltaBlock (b : Nat) (base : Word) (p : List Word) :
    (deltaBlock b base p).length = 128 := by
  simp [deltaBlock, Config.block]

@[simp] theorem getElem_packBlock (b : Nat) (v : List Word) {j : Nat} (h : j < (packBlock b v).length) :
    (packBlock b v)[j] = packedWord b v j := by
  simp [packBlock]

@[simp] theorem getElem_unpackBlock (b : Nat) (p : List Word) {i : Nat} (h : i < (unpackBlock b p).length) :
    (unpackBlock b p)[i] = unpackedValue b p i := by
  simp [unpackBlock]

@[simp] theorem getElem_deltaBlock (b : Nat) (base : Word) (p : List Word) {i : Nat}
    (h : i < (deltaBlock b base p).length) :
    (deltaBlock b base p)[i] = runningSum base (unpackBlock b p) i := by
  simp [deltaBlock]

/-- No check fails exactly when the command is accepted. -/
theorem validate_eq_none_iff (i : Instr) (s : State) :
    validate i.width (needSrc i) (needDst i) s = none ↔ Accepted i s := by
  constructor
  · intro h
    unfold validate at h
    split at h <;> [simp at h; skip]
    split at h <;> [simp at h; skip]
    split at h <;> [simp at h; skip]
    split at h <;> [simp at h; skip]
    rename_i hw hs hr ho
    simp only [badWidth, badSizes, outOfRange, overlapping, Bool.or_eq_true, Bool.and_eq_true, decide_eq_true_eq,
      bne_iff_ne, not_or, not_not, ne_eq, not_and, not_lt] at hw hs hr ho
    exact ⟨by omega, by omega, hs.1, hs.2, by omega, by omega, by omega⟩
  · rintro ⟨h1, h2, h3, h4, h5, h6, h7⟩
    unfold validate
    rw [if_neg, if_neg, if_neg, if_neg] <;>
      simp only [badWidth, badSizes, outOfRange, overlapping, Bool.or_eq_true, Bool.and_eq_true, decide_eq_true_eq,
        bne_iff_ne, ne_eq] <;> omega

/-- Every command is the frame of R149 around a compute phase that answers `needDst` words. -/
theorem exec_eq_runCommand (i : Instr) (s : State) :
    ∃ compute : List Word → List Word, (∀ src, (compute src).length = needDst i) ∧
      exec i s = runCommand i.width (needSrc i) (needDst i) compute s := by
  cases i with
  | pack b => exact ⟨packBlock b, fun _ => by simp [needDst, Config.packedWords, Config.lanes], rfl⟩
  | unpack b => exact ⟨unpackBlock b, fun _ => by simp [needDst, Config.block], rfl⟩
  | unpackDelta b => exact ⟨deltaBlock b s.base, fun _ => by simp [needDst, Config.block], rfl⟩

/-- A command that answers a next state either reported an error and wrote STATUS.ERR alone, or passed its checks,
read its whole source and wrote its whole destination. -/
theorem exec_next_cases {i : Instr} {s t : State} (h : exec i s = .next t) :
    (∃ e, validate i.width (needSrc i) (needDst i) s = some e ∧ t = s.withErr (errCode e)) ∨
    (Accepted i s ∧ ∃ src dst, readWords s.spm s.src.toNat s.srcLen.toNat = .ok src ∧
      dst.length = needDst i ∧ t = complete dst s) := by
  obtain ⟨compute, hlen, heq⟩ := exec_eq_runCommand i s
  rw [heq, runCommand] at h
  cases hv : validate i.width (needSrc i) (needDst i) s with
  | some e =>
    rw [hv] at h
    simp only [raiseCmdError, Host.Outcome.next.injEq] at h
    exact .inl ⟨e, rfl, h.symm⟩
  | none =>
    rw [hv] at h
    cases hr : readWords s.spm s.src.toNat s.srcLen.toNat with
    | error f => rw [hr] at h; simp at h
    | ok src =>
      rw [hr] at h
      simp only [Host.Outcome.next.injEq] at h
      exact .inr ⟨(validate_eq_none_iff i s).1 hv, src, compute src, rfl, hlen src, h.symm⟩

@[simp] theorem complete_spm (dst : List Word) (s : State) :
    (complete dst s).spm = writeWords s.spm s.dst.toNat dst := rfl

@[simp] theorem complete_err (dst : List Word) (s : State) : (complete dst s).err = 0 := rfl

theorem complete_eq (dst : List Word) (s : State) :
    complete dst s = { s with spm := writeWords s.spm s.dst.toNat dst, err := 0 } := rfl

/-- The read phase of an accepted command whose source is `v 0`, `v 1`, ... answers those words. -/
theorem readWords_of_holdsSource {s : State} {n : Nat} {v : Nat → Word} (h : HoldsSource s n v) :
    readWords s.spm s.src.toNat n = .ok ((List.range n).map v) := by
  rw [readWords_eq_ok_iff]
  refine ⟨by simp, fun j hj => ?_⟩
  simp only [List.length_map, List.length_range] at hj
  simpa using h j hj

/-- What an accepted command whose source is `v 0`, `v 1`, ... answers. -/
theorem runCommand_accepted {i : Instr} {s : State} {v : Nat → Word} (compute : List Word → List Word)
    (ha : Accepted i s) (hv : HoldsSource s (needSrc i) v) :
    runCommand i.width (needSrc i) (needDst i) compute s =
      .next (complete (compute ((List.range (needSrc i)).map v)) s) := by
  rw [runCommand, (validate_eq_none_iff i s).2 ha, ha.src_len, readWords_of_holdsSource hv]

theorem exec_pack_accepted {b : Nat} {s : State} {v : Nat → Word} (ha : Accepted (.pack b) s)
    (hv : HoldsSource s 128 v) :
    exec (.pack b) s = .next (complete (packBlock b ((List.range 128).map v)) s) :=
  runCommand_accepted (i := .pack b) _ ha hv

theorem exec_unpack_accepted {b : Nat} {s : State} {p : Nat → Word} (ha : Accepted (.unpack b) s)
    (hv : HoldsSource s (4 * b) p) :
    exec (.unpack b) s = .next (complete (unpackBlock b ((List.range (4 * b)).map p)) s) :=
  runCommand_accepted (i := .unpack b) _ ha hv

theorem exec_unpackDelta_accepted {b : Nat} {s : State} {p : Nat → Word} (ha : Accepted (.unpackDelta b) s)
    (hv : HoldsSource s (4 * b) p) :
    exec (.unpackDelta b) s = .next (complete (deltaBlock b s.base ((List.range (4 * b)).map p)) s) :=
  runCommand_accepted (i := .unpackDelta b) _ ha hv

/-- A command that was not accepted reports an error, whatever the scratchpad holds. -/
theorem exec_of_validate {i : Instr} {s : State} {e : CmdError}
    (h : validate i.width (needSrc i) (needDst i) s = some e) : exec i s = .next (s.withErr (errCode e)) := by
  obtain ⟨compute, -, heq⟩ := exec_eq_runCommand i s
  rw [heq, runCommand, h]; rfl

end Sys2Proof.Machine
end

