-- ==== Sys2Proof/Laws/HostPort.lean ====
section
/-! SUPPORT. What the host port can do: a step on a waiting event, and which offsets are admitted. -/

namespace Sys2Proof.Machine

@[simp] theorem step_withPending_cons (s : State) (e : HostEvent) (rest : List HostEvent) :
    step (s.withPending (e :: rest)) = perform (s.withPending rest) e := rfl

/-- The CSR map: offset and register determine each other. -/
theorem Csr.at?_eq_some_iff (off : Nat) (r : Csr) : Csr.at? off = some r ↔ r.offset = off := by
  constructor
  · intro h
    unfold Csr.at? at h
    split at h <;> first | (cases h; rfl) | simp at h
  · rintro rfl
    cases r <;> rfl

/-- The SPM window ends where the word index reaches `SPM_WORDS` (R71). -/
theorem windowIndex_lt_iff {off : Nat} (h : spmWindow ≤ off) :
    (off - spmWindow) / 4 < Config.spmWords ↔ off < spmWindow + 4 * Config.spmWords := by omega

/-- What an admitted transaction looks like. -/
theorem admittedTarget_eq_some_iff (width off : Nat) (t : Target) :
    admittedTarget width off = some t ↔
      width = 32 ∧ off % 4 = 0 ∧
        ((∃ r, t = .csr r ∧ r.offset = off) ∨
          (spmWindow ≤ off ∧ ∃ w : Fin Config.spmWords, w.val = (off - spmWindow) / 4 ∧ t = .spmWord w)) := by
  unfold admittedTarget target?
  by_cases h : width = 32 ∧ off % 4 = 0
  · rw [if_pos h]
    by_cases hw : off < spmWindow
    · rw [if_pos hw, Option.map_eq_some_iff]
      constructor
      · rintro ⟨r, hr, rfl⟩
        exact ⟨h.1, h.2, .inl ⟨r, rfl, (Csr.at?_eq_some_iff _ _).1 hr⟩⟩
      · rintro ⟨-, -, ⟨r, rfl, hr⟩ | ⟨h', -⟩⟩
        · exact ⟨r, (Csr.at?_eq_some_iff _ _).2 hr, rfl⟩
        · omega
    · rw [if_neg hw]
      have noCsr (r : Csr) : r.offset ≠ off := by
        have : r.offset < spmWindow := by cases r <;> decide
        omega
      by_cases hs : (off - spmWindow) / 4 < Config.spmWords
      · rw [dif_pos hs, Option.some.injEq]
        constructor
        · rintro rfl
          exact ⟨h.1, h.2, .inr ⟨by omega, _, rfl, rfl⟩⟩
        · rintro ⟨-, -, ⟨r, -, hr⟩ | ⟨-, w, hv, rfl⟩⟩
          · exact absurd hr (noCsr r)
          · exact congrArg Target.spmWord (Fin.ext hv.symm)
      · rw [dif_neg hs]
        constructor
        · intro h'; simp at h'
        · rintro ⟨-, -, ⟨r, -, hr⟩ | ⟨-, w, hv, -⟩⟩
          · exact absurd hr (noCsr r)
          · exact absurd (hv ▸ w.isLt) hs
  · rw [if_neg h]
    constructor
    · intro h'; simp at h'
    · rintro ⟨h1, h2, -⟩; exact absurd ⟨h1, h2⟩ h

/-- An aligned 32-bit transaction in the SPM window names its word (R71, R72). -/
theorem admittedTarget_spmWord {off : Nat} (h4 : off % 4 = 0) (hlo : spmWindow ≤ off)
    (hhi : (off - spmWindow) / 4 < Config.spmWords) :
    admittedTarget 32 off = some (.spmWord ⟨(off - spmWindow) / 4, hhi⟩) :=
  (admittedTarget_eq_some_iff _ _ _).2 ⟨rfl, h4, .inr ⟨hlo, _, rfl, rfl⟩⟩

/-- A CMD write is always admitted (R236). -/
theorem admittedTarget_cmd : admittedTarget 32 Csr.cmd.offset = some (.csr .cmd) :=
  (admittedTarget_eq_some_iff _ _ _).2 ⟨rfl, rfl, .inl ⟨_, rfl, rfl⟩⟩

theorem respondWith_eq_next_iff (r : Response) (o : Host.Outcome State Fault Refusal) (t : State) :
    respondWith r o = .next t ↔ ∃ u, o = .next u ∧ t = u.respond r := by
  cases o <;> simp [respondWith, eq_comm]

/-- What a CMD write that answers a next state can have done. -/
theorem issueCommand_next_cases {v : Word} {s t : State} (h : issueCommand v s = .next t) :
    (∃ why, decode v = .illegal why ∧ t = (s.withCmd v).withErr (errCode .illegalCommand)) ∨
    (∃ i, decode v = .legal i ∧ exec i (s.withCmd v) = .next t) := by
  unfold issueCommand at h
  cases hd : decode v with
  | illegal why =>
    rw [hd] at h
    simp only [raiseCmdError, writeCsr, Host.Outcome.next.injEq] at h
    exact .inl ⟨why, rfl, h.symm⟩
  | legal i => rw [hd] at h; exact .inr ⟨i, rfl, h⟩

/-- What one event that answers a next state can have done: everything a step can do. -/
theorem perform_next_cases {s t : State} {e : HostEvent} (h : perform s e = .next t) :
    (t = resetInput s ∧ (e = .reset ∨ ∃ v, e = .resetDuringCommand v)) ∨
    (∃ width off, (e = .transaction (.read width off) ∨ ∃ v, e = .transaction (.write width off v)) ∧
      admittedTarget width off = none ∧ t = s.respond (.busError off)) ∨
    (∃ width off v tg, e = .transaction (.read width off) ∧ admittedTarget width off = some tg ∧
      t = s.respond (.data v) ∧ hostRead s tg = .next t) ∨
    (∃ v u, e = .transaction (.write 32 Csr.cmd.offset v) ∧ issueCommand v s = .next u ∧ t = u.respond .ok) ∨
    (∃ r v, r ≠ .cmd ∧ e = .transaction (.write 32 r.offset v) ∧ t = (writeCsr s v r).respond .ok) ∨
    (∃ off v, ∃ w : Fin Config.spmWords, e = .transaction (.write 32 off v) ∧ spmWindow ≤ off ∧
      w.val = (off - spmWindow) / 4 ∧ t = (s.withSpm (writeWord s.spm w v)).respond .ok) := by
  cases e with
  | reset => simp only [perform, Host.Outcome.next.injEq] at h; exact .inl ⟨h.symm, .inl rfl⟩
  | resetDuringCommand v => simp only [perform, Host.Outcome.next.injEq] at h; exact .inl ⟨h.symm, .inr ⟨v, rfl⟩⟩
  | transaction tr =>
    cases tr with
    | read width off =>
      simp only [perform, hostTransaction] at h
      cases ha : admittedTarget width off with
      | none =>
        simp only [ha, Host.Outcome.next.injEq] at h
        exact .inr (.inl ⟨width, off, .inl rfl, ha, h.symm⟩)
      | some tg =>
        rw [ha] at h
        have hread := h
        cases tg with
        | csr r =>
          simp only [hostRead, Host.Outcome.next.injEq] at h
          exact .inr (.inr (.inl ⟨width, off, _, _, rfl, ha, h.symm, hread⟩))
        | spmWord w =>
          simp only [hostRead] at h
          cases hw : s.spmAt w with
          | none => rw [hw] at h; simp at h
          | some v =>
            rw [hw] at h
            simp only [Host.Outcome.next.injEq] at h
            exact .inr (.inr (.inl ⟨width, off, v, _, rfl, ha, h.symm, hread⟩))
    | write width off v =>
      simp only [perform, hostTransaction] at h
      cases ha : admittedTarget width off with
      | none =>
        simp only [ha, Host.Outcome.next.injEq] at h
        exact .inr (.inl ⟨width, off, .inr ⟨v, rfl⟩, ha, h.symm⟩)
      | some tg =>
        rw [ha] at h
        obtain ⟨rfl, -, ⟨r, rfl, rfl⟩ | ⟨h1, w, h2, rfl⟩⟩ := (admittedTarget_eq_some_iff _ _ _).1 ha
        · by_cases hr : r = .cmd
          · subst hr
            obtain ⟨u, hu, ht⟩ := (respondWith_eq_next_iff _ _ _).1 h
            exact .inr (.inr (.inr (.inl ⟨v, u, rfl, hu, ht⟩)))
          · refine .inr (.inr (.inr (.inr (.inl ⟨r, v, hr, rfl, ?_⟩))))
            cases r <;> first | exact absurd rfl hr | (simpa [hostWrite, respondWith, eq_comm] using h)
        · refine .inr (.inr (.inr (.inr (.inr ⟨off, v, w, rfl, h1, h2, ?_⟩))))
          simpa [hostWrite, respondWith, eq_comm] using h

/-- A step that answers a next state either had no event waiting, or performed the next one. -/
theorem step_next_cases {s t : State} (h : step s = .next t) :
    (s.pending = [] ∧ t = s) ∨
      ∃ e rest, s.pending = e :: rest ∧ perform (s.withPending rest) e = .next t := by
  unfold step performNext at h
  cases hp : s.pending with
  | nil =>
    rw [hp] at h
    simp only [Host.Outcome.next.injEq] at h
    exact .inl ⟨rfl, h.symm⟩
  | cons e rest => rw [hp] at h; exact .inr ⟨e, rest, rfl, h⟩

/-- A step on a CMD write issues its word. -/
theorem step_cmdWrite (s : State) (rest : List HostEvent) (v : Word) :
    step (s.withPending (cmdWrite v :: rest)) = respondWith .ok (issueCommand v (s.withPending rest)) := by
  rw [cmdWrite, step_withPending_cons]
  simp only [perform, hostTransaction]
  rw [show admittedTarget 32 0 = some (.csr .cmd) from admittedTarget_cmd]
  rfl

end Sys2Proof.Machine
end

