-- ==== Sys2Proof/Laws/PerInstr.lean ====
section
/-! SUPPORT. Statements about every command as syntax, one lemma per constructor: the family `TableRow` says that a
command's CMD word is of its row of spec/opcode_table.json. -/

namespace Sys2Proof.Laws.TableRow

/-- A row's `match` (its `mask` is 0xFFFF00FF in every row). -/
def rowMatch : Instr → Word
  | .pack _ => 0x00000001
  | .unpack _ => 0x00000002
  | .unpackDelta _ => 0x00000003

/-- The bits of a command's word under the row's mask are the row's match, and BITS is the width. -/
def Statement (i : Instr) : Prop :=
  i.wellFormed = true → encode i &&& 0xFFFF00FF = rowMatch i ∧ (cmdBits (encode i)).toNat = i.width

/-- The fields of a CMD word put together from a width that fits. -/
theorem cmd32_fields {b op : Nat} (hb : b < 256) (hop : op < 16) :
    cmd32 b op &&& 0xFFFF00FF = BitVec.ofNat 32 op ∧ (cmdBits (cmd32 b op)).toNat = b := by
  constructor
  · have h : ∀ x : BitVec 8, ∀ y : BitVec 4, (0#16 ++ x ++ 0#4 ++ y) &&& 0xFFFF00FF#32 = BitVec.setWidth 32 y := by
      decide +kernel
    refine (h (BitVec.ofNat 8 b) (BitVec.ofNat 4 op)).trans ?_
    apply BitVec.eq_of_toNat_eq
    simp only [BitVec.toNat_setWidth, BitVec.toNat_ofNat]
    omega
  · have h : ∀ x : BitVec 8, ∀ y : BitVec 4, cmdBits (0#16 ++ x ++ 0#4 ++ y) = x := by decide +kernel
    refine (congrArg BitVec.toNat (h (BitVec.ofNat 8 b) (BitVec.ofNat 4 op))).trans ?_
    simpa using hb

theorem pack (b : Nat) : Statement (.pack b) := fun h =>
  cmd32_fields (b := b) (op := 1) (by simpa [Instr.wellFormed] using h) (by decide)

theorem unpack (b : Nat) : Statement (.unpack b) := fun h =>
  cmd32_fields (b := b) (op := 2) (by simpa [Instr.wellFormed] using h) (by decide)

theorem unpackDelta (b : Nat) : Statement (.unpackDelta b) := fun h =>
  cmd32_fields (b := b) (op := 3) (by simpa [Instr.wellFormed] using h) (by decide)

end Sys2Proof.Laws.TableRow
end

