-- ==== Sys2Proof/Tests/Slice0.lean ====
section
/-! SUPPORT. Tests. Expected values are the spec's own: the encodings of 30_encoding.md, the vectors V-E, V-C, V-H, V-P,
V-U, V-D of 95_test_vectors.md. Then one witness for the hypotheses of each statement, clause by clause. -/

namespace Sys2Proof.Machine

/-! ## Well-formedness and decoding -/

/-- A width of 256 does not fit BITS (R113, R119). -/
theorem test_pack_width_256_refused : (Instr.pack 256).wellFormed = false := by decide
theorem test_unpack_width_256_refused : (Instr.unpack 256).wellFormed = false := by decide
theorem test_unpackDelta_width_256_refused : (Instr.unpackDelta 256).wellFormed = false := by decide

/-- RSV1, BITS, RSV0, OP written out bit by bit (R111, R112). -/
theorem test_decode_pack : decode 0b0000000000000000_00011111_0000_0001 = .legal (.pack 31) := by decide
theorem test_decode_unpack : decode 0b0000000000000000_00000111_0000_0010 = .legal (.unpack 7) := by decide
theorem test_decode_unpackDelta : decode 0b0000000000000000_11111111_0000_0011 = .legal (.unpackDelta 255) := by decide
theorem test_decode_op0 : decode 0b0000000000000000_00000000_0000_0000 = .illegal .reservedOp := by decide
theorem test_decode_op4 : decode 0b0000000000000000_00000010_0000_0100 = .illegal .reservedOp := by decide
theorem test_decode_op15 : decode 0b0000000000000000_00000010_0000_1111 = .illegal .reservedOp := by decide
theorem test_decode_rsv0 : decode 0b0000000000000000_00000010_0001_0001 = .illegal .rsv0Set := by decide
theorem test_decode_rsv1 : decode 0b1000000000000000_00000010_0000_0001 = .illegal .rsv1Set := by decide

theorem test_encode_pack : encode (.pack 31) = 0b0000000000000000_00011111_0000_0001 := by decide
theorem test_encode_unpack : encode (.unpack 7) = 0b0000000000000000_00000111_0000_0010 := by decide
theorem test_encode_unpackDelta : encode (.unpackDelta 255) = 0b0000000000000000_11111111_0000_0011 := by decide

theorem test_decodeTableWord_rows :
    [decodeTableWord 32 0x00000101, decodeTableWord 32 0x00000102, decodeTableWord 32 0x00000103,
      decodeTableWord 32 0x00000104] = [some (.pack 1), some (.unpack 1), some (.unpackDelta 1), none] := by decide

/-! ## States -/

/-- A machine with these buffer descriptors, base and scratchpad. Its SPM has `SPM_WORDS` words, of which the tests use
the first 256, which every instance has (R44). -/
def machine (src srcLen dst dstLen base : Word) (spm : Memory) : State :=
  { State.reset with
    src := src, srcLen := srcLen, dst := dst, dstLen := dstLen, base := base, spm := spm }

/-- `n` words from word 0 on, word `j` being `f j`. -/
def filled (n : Nat) (f : Nat → Word) : Memory := writeWords [] 0 ((List.range n).map f)

/-- STATUS.ERR and the first `n` words from word `w` on, of a next state. -/
def outcomeWords (w n : Nat) : Host.Outcome State Fault Refusal → Option (BitVec 4 × List (Option Word))
  | .next t => some (t.err, (List.range n).map fun j => readWord t.spm (w + j))
  | _ => none

/-- Whether an outcome is a next state. -/
def isNext : Host.Outcome State Fault Refusal → Bool
  | .next _ => true
  | _ => false

theorem exists_next {o : Host.Outcome State Fault Refusal} (h : isNext o = true) : ∃ t, o = .next t := by
  cases o with
  | next t => exact ⟨t, rfl⟩
  | fault f => cases h
  | refused x => cases h

/-- Byte `a` of a next state's scratchpad. -/
def byteAfter (a : Nat) : Host.Outcome State Fault Refusal → Option Byte
  | .next t => readByte t.spm a
  | _ => none

theorem exists_next_byte {o : Host.Outcome State Fault Refusal} {a : Nat} {v : Byte} (h : byteAfter a o = some v) :
    ∃ t, o = .next t ∧ readByte t.spm a = some v := by
  cases o with
  | next t => exact ⟨t, rfl, h⟩
  | fault f => cases h
  | refused x => cases h

/-- The fault of an outcome, if it is one. -/
def faultOf : Host.Outcome State Fault Refusal → Option Fault
  | .fault f => some f
  | _ => none

theorem eq_fault {o : Host.Outcome State Fault Refusal} {f : Fault} (h : faultOf o = some f) : o = .fault f := by
  cases o with
  | next t => cases h
  | fault g => cases h; rfl
  | refused x => cases h

/-- What the host got last. -/
def lastResponse : Host.Outcome State Fault Refusal → Option Response
  | .next t => t.responses.getLast?
  | _ => none

/-! ## One step of each command -/

/-- P-7: at b = 3 the value at index 40 straddles words 0 and 4 (lane 0, offset 30). -/
theorem test_pack_straddle :
    outcomeWords 128 12 (step ((machine 0 128 128 12 0 (filled 128 fun i => if i = 40 then 7 else 0)).withFetchWord
      32 0x00000301)) =
    some (0, [some 0xC0000000, some 0, some 0, some 0, some 1, some 0, some 0, some 0, some 0, some 0, some 0, some 0]) := by
  decide +kernel

/-- P-8: values of 2^b or more are truncated. -/
theorem test_pack_truncates :
    outcomeWords 128 12 (step ((machine 0 128 128 12 0 (filled 128 fun _ => 0xFFFFFFF5)).withFetchWord
      32 0x00000301)) =
    some (0, List.replicate 4 (some 0x6DB6DB6D) ++ List.replicate 4 (some 0xDB6DB6DB) ++
      List.replicate 4 (some 0xB6DB6DB6)) := by
  decide +kernel

/-- U-6: a straddling field at b = 3. -/
theorem test_unpack_straddle :
    outcomeWords 128 128 (step ((machine 0 12 128 128 0
      (filled 12 fun j => if j = 0 then 0xC0000000 else if j = 4 then 1 else 0)).withFetchWord 32 0x00000302)) =
    some (0, (List.range 128).map fun i => some (if i = 40 then 7 else 0)) := by
  decide +kernel

/-- U-4: b = 7, every lane alike. -/
theorem test_unpack_seven :
    outcomeWords 128 12 (step ((machine 0 28 128 128 0 (filled 28 fun _ => 0x12345678)).withFetchWord
      32 0x00000702)) =
    some (0, List.replicate 4 (some 0x78) ++ List.replicate 4 (some 0x2C) ++ List.replicate 4 (some 0x51)) := by
  decide +kernel

/-- D-4: the running sum crosses from one register to the next. -/
theorem test_unpackDelta_carry :
    outcomeWords 128 12 (step ((machine 0 8 128 128 0
      (filled 8 fun j => [0x00000000, 0x55555555, 0xAAAAAAAA, 0xFFFFFFFF].getD (j % 4) 0)).withFetchWord
      32 0x00000203)) =
    some (0, [0, 1, 3, 6, 6, 7, 9, 12, 12, 13, 15, 18].map some) := by
  decide +kernel

/-- D-2: the sum wraps modulo 2^32. -/
theorem test_unpackDelta_wraps :
    outcomeWords 128 4 (step ((machine 0 4 128 128 0xFFFFFFFF (filled 4 fun _ => 0xFFFFFFFF)).withFetchWord
      32 0x00000103)) = some (0, [0, 1, 2, 3].map some) := by
  decide +kernel

/-! ## The host port -/

/-- H-3, H-6 and H-7: refused transactions. -/
theorem test_refused :
    [(32, 0x002), (32, 0x020), (32, 0xFFC), (16, 0x000), (8, 0x1000), (64, 0x1000)].map
      (fun x => lastResponse (step ((machine 0 0 0 0 0 []).withPending [.transaction (.read x.1 x.2)]))) =
    [0x002, 0x020, 0xFFC, 0x000, 0x1000, 0x1000].map (fun a => some (.busError a)) := by decide

/-- H-4: the first offset past the SPM is refused. -/
theorem test_refused_past_spm :
    lastResponse (step ((machine 0 0 0 0 0 []).withPending [.transaction (.read 32 (spmOffset Config.spmWords))])) =
      some (.busError (spmOffset Config.spmWords)) := by
  have h : admittedTarget 32 (spmOffset Config.spmWords) = none := by
    rw [Option.eq_none_iff_forall_ne_some]
    intro t ht
    obtain ⟨-, -, ⟨r, -, h⟩ | ⟨-, w, h, -⟩⟩ := (admittedTarget_eq_some_iff _ _ _).1 ht
    · have : r.offset < spmWindow := by cases r <;> decide
      simp only [spmOffset] at h; omega
    · have := w.isLt
      simp only [spmOffset] at h; omega
  simp [perform, hostTransaction, h, lastResponse]

/-- SPM_SIZE reads `SPM_WORDS`, and a write to it is ignored (R43). -/
theorem test_spmSize_constant :
    lastResponse (Host.Core.run core 2 ((machine 0 0 0 0 0 []).withPending
      [.transaction (.write 32 0x01C 7), .transaction (.read 32 0x01C)])) =
    some (.data (BitVec.ofNat 32 Config.spmWords)) := rfl

/-- H-12: an SPM word reads as written. -/
theorem test_spm_write_then_read :
    lastResponse (Host.Core.run core 2 ((machine 0 0 0 0 0 []).withPending
      [.transaction (.write 32 0x1014 7), .transaction (.read 32 0x1014)])) = some (.data 7) := by decide +kernel

/-- H-13: CMD reads back an illegal word, and STATUS reads 5. -/
theorem test_illegal_readback :
    lastResponse (Host.Core.run core 2 ((machine 0 0 0 0 0 []).withPending
      [.transaction (.write 32 0x000 0x12345678), .transaction (.read 32 0x000)])) = some (.data 0x12345678) ∧
    lastResponse (Host.Core.run core 2 ((machine 0 0 0 0 0 []).withPending
      [.transaction (.write 32 0x000 0x12345678), .transaction (.read 32 0x004)])) = some (.data 5) := by decide +kernel

/-- The notation of R119 and R120: `DO_UNPACK_DELTA 2, 128, 0, 10` as program P2 writes it out. -/
theorem test_doUnpackDelta_expansion :
    doUnpackDelta 2 128 0 10 = [.write 0x008 128, .write 0x00C 8, .write 0x010 0, .write 0x014 128, .write 0x018 10,
      .write 0x000 0x00000203] := by decide

/-! ## Witnesses: states that meet the hypotheses of the statements -/

/-- PACK 2 of 128 threes. -/
def packReady : State := machine 0 128 128 8 0 (filled 128 fun _ => 3)
/-- UNPACK 1 or UNPACK_DELTA 1 of four words of ones. -/
def unpackReady : State := machine 0 4 128 128 0xFFFFFFFF (filled 4 fun _ => 0xFFFFFFFF)
/-- UNPACK_DELTA 1 of zeros, words 124 to 127, then 128 to 255, the last place that every SPM has. -/
def deltaReady : State := machine 124 4 128 128 10 (writeWords [] 124 [0, 0, 0, 0])
/-- Width 32: source 128 to 255, destination 0 to 127, adjacent and filling 256 words (C-22). -/
def wideReady : State := machine 128 128 0 128 0 (writeWords [] 128 ((List.range 128).map fun _ => 5))

theorem witness_accepted_pack : Accepted (.pack 2) packReady := (validate_eq_none_iff _ _).1 (by decide +kernel)
theorem witness_accepted_unpack : Accepted (.unpack 1) unpackReady := (validate_eq_none_iff _ _).1 (by decide +kernel)
theorem witness_accepted_unpackDelta : Accepted (.unpackDelta 1) deltaReady := (validate_eq_none_iff _ _).1 (by decide +kernel)
theorem witness_accepted_wide :
    Accepted (.pack 32) wideReady ∧ Accepted (.unpack 32) wideReady ∧ Accepted (.unpackDelta 32) wideReady :=
  ⟨(validate_eq_none_iff _ _).1 (by decide +kernel), (validate_eq_none_iff _ _).1 (by decide +kernel),
    (validate_eq_none_iff _ _).1 (by decide +kernel)⟩

/-- A buffer written from word `w` on is the source of a machine whose SRC is `w`. -/
theorem holdsSource_written (s : State) (w n : Nat) (f : Nat → Word) (hw : s.src.toNat = w)
    (h : s.spm = writeWords [] w ((List.range n).map f)) : HoldsSource s n f := fun j hj => by
  rw [h, hw, readWord_writeWords _ _ _ (by simpa using hj)]; simp

theorem witness_source_pack : HoldsSource packReady 128 (fun _ => 3) := holdsSource_written _ 0 _ _ (by decide) rfl
theorem witness_source_unpack : HoldsSource unpackReady 4 (fun _ => 0xFFFFFFFF) := holdsSource_written _ 0 _ _ (by decide) rfl
theorem witness_source_unpackDelta : HoldsSource deltaReady 4 (fun _ => 0) :=
  holdsSource_written _ 124 _ _ (by decide) rfl
theorem witness_source_wide : HoldsSource wideReady 128 (fun _ => 5) :=
  holdsSource_written _ 128 _ _ (by decide) rfl

/-- PackWritesTheCanonicalWords, PackedBitsAreValueBits: b = 2, and b = 32. -/
theorem witness_PackWritesTheCanonicalWords :
    (Accepted (.pack 2) packReady ∧ HoldsSource packReady 128 fun _ => 3) ∧
    (Accepted (.pack 32) wideReady ∧ HoldsSource wideReady 128 fun _ => 5) :=
  ⟨⟨witness_accepted_pack, witness_source_pack⟩, witness_accepted_wide.1, witness_source_wide⟩

/-- PackDropsHighBits: 3 and 7 agree modulo 4. -/
theorem witness_PackDropsHighBits :
    Accepted (.pack 2) packReady ∧ HoldsSource packReady 128 (fun _ => 3) ∧
    HoldsSource { packReady with spm := filled 128 fun _ => 7 } 128 (fun _ => 7) ∧
    ∀ i, i < 128 → ((fun _ => 3 : Nat → Word) i).toNat % 2 ^ 2 = ((fun _ => 7 : Nat → Word) i).toNat % 2 ^ 2 :=
  ⟨witness_accepted_pack, witness_source_pack, holdsSource_written _ 0 _ _ (by decide) rfl, by decide⟩

/-- UnpackWritesTheFields: b = 1, and b = 32. -/
theorem witness_UnpackWritesTheFields :
    (Accepted (.unpack 1) unpackReady ∧ HoldsSource unpackReady (4 * 1) fun _ => 0xFFFFFFFF) ∧
    (Accepted (.unpack 32) wideReady ∧ HoldsSource wideReady (4 * 32) fun _ => 5) :=
  ⟨⟨witness_accepted_unpack, witness_source_unpack⟩, witness_accepted_wide.2.1, witness_source_wide⟩

/-- UnpackDeltaWritesRunningSums: b = 1 at the end of the SPM, and b = 32. -/
theorem witness_UnpackDeltaWritesRunningSums :
    (Accepted (.unpackDelta 1) deltaReady ∧ HoldsSource deltaReady (4 * 1) fun _ => 0) ∧
    (Accepted (.unpackDelta 32) wideReady ∧ HoldsSource wideReady (4 * 32) fun _ => 5) :=
  ⟨⟨witness_accepted_unpackDelta, witness_source_unpackDelta⟩, witness_accepted_wide.2.2, witness_source_wide⟩

/-- DeltaCornerCases, its clauses: all deltas 0 (and no sum wraps); BASE = 0xFFFFFFFF and all deltas 1; b = 32. -/
theorem witness_DeltaCornerCases :
    (Accepted (.unpackDelta 1) deltaReady ∧ HoldsSource deltaReady (4 * 1) (fun _ => 0) ∧
      (∀ n, n < 128 → packedField 1 (fun _ => 0) n = 0) ∧
      deltaReady.base.toNat + ∑ n ∈ Finset.range 128, packedField 1 (fun _ => 0) n < 2 ^ 32) ∧
    (Accepted (.unpackDelta 1) unpackReady ∧ HoldsSource unpackReady (4 * 1) (fun _ => 0xFFFFFFFF) ∧
      unpackReady.base = 0xFFFFFFFF ∧ ∀ n, n < 128 → packedField 1 (fun _ => 0xFFFFFFFF) n = 1) ∧
    (Accepted (.unpackDelta 32) wideReady ∧ HoldsSource wideReady (4 * 32) fun _ => 5) := by
  refine ⟨⟨witness_accepted_unpackDelta, witness_source_unpackDelta, by decide +kernel, by decide +kernel⟩,
    ⟨(validate_eq_none_iff _ _).1 (by decide +kernel), witness_source_unpack, rfl, by decide +kernel⟩,
    witness_accepted_wide.2.2, witness_source_wide⟩

/-- UnpackedValuesFitTheWidth, CommandIsAllOrNothing (first case): an UNPACK that succeeds. -/
theorem witness_UnpackedValuesFitTheWidth : ∃ t, exec (.unpack 1) unpackReady = .next t ∧ t.err = 0 :=
  ⟨_, exec_unpack_accepted witness_accepted_unpack witness_source_unpack, rfl⟩

/-- WidthThirtyTwoIsTheIdentity. -/
theorem witness_WidthThirtyTwoIsTheIdentity :
    HoldsSource wideReady 128 (fun _ => 5) ∧ Accepted (.pack 32) wideReady ∧ Accepted (.unpack 32) wideReady :=
  ⟨witness_source_wide, witness_accepted_wide.1, witness_accepted_wide.2.1⟩

/-- WorkedExamplesOfTheSource: the source's three examples. -/
theorem witness_WorkedExamplesOfTheSource :
    (Accepted (.pack 2) packReady ∧ HoldsSource packReady 128 fun _ => 3) ∧
    (∃ s : State, Accepted (.unpack 2) s ∧ HoldsSource s 8 fun _ => 0xFFFFFFFF) ∧
    (∃ s : State, Accepted (.unpackDelta 2) s ∧ s.base = 10 ∧ HoldsSource s 8 fun j => if j < 4 then 1 else 0) := by
  refine ⟨⟨witness_accepted_pack, witness_source_pack⟩,
    ⟨machine 0 8 128 128 0 (filled 8 fun _ => 0xFFFFFFFF), (validate_eq_none_iff _ _).1 (by decide +kernel), ?_⟩,
    ⟨machine 0 8 128 128 10 (filled 8 fun j => if j < 4 then 1 else 0), (validate_eq_none_iff _ _).1 (by decide +kernel), rfl, ?_⟩⟩ <;>
  exact holdsSource_written _ 0 _ _ (by decide) rfl

/-- RoundTripThroughTheScratchpad: after PACK 2 the arguments turned round are accepted by UNPACK 2. -/
theorem witness_RoundTripThroughTheScratchpad :
    Accepted (.pack 2) packReady ∧ HoldsSource packReady 128 (fun _ => 3) ∧
    ∀ t, exec (.pack 2) packReady = .next t →
      Accepted (.unpack 2) { t with src := packReady.dst, srcLen := packReady.dstLen, dst := 0, dstLen := 128 } := by
  refine ⟨witness_accepted_pack, witness_source_pack, fun t ht => ?_⟩
  rcases exec_next_cases ht with ⟨e, he, -⟩ | ⟨-, -, -, -, -, rfl⟩
  · rw [(validate_eq_none_iff _ _).2 witness_accepted_pack] at he; cases he
  · have := Config.spmWords_ge
    exact ⟨by decide, by decide, rfl, rfl, Nat.le_trans (show 128 + 8 ≤ 256 by decide) this,
      Nat.le_trans (show 0 + 128 ≤ 256 by decide) this, .inl (show 0 + 128 ≤ 128 by decide)⟩

/-- UndefinedSourceWordFaults: the first source word undefined (C-23), and the last of four. -/
theorem witness_UndefinedSourceWordFaults :
    (Accepted (.pack 2) (machine 0 128 128 8 0 []) ∧ readWord [] 0 = none) ∧
    (Accepted (.unpack 1) (machine 0 4 128 128 0 (filled 3 fun _ => 1)) ∧
      readWord (filled 3 fun _ => 1) 3 = none ∧ ∀ j, j < 3 → readWord (filled 3 fun _ => 1) (0 + j) ≠ none) :=
  ⟨⟨(validate_eq_none_iff _ _).1 (by decide +kernel), rfl⟩, (validate_eq_none_iff _ _).1 (by decide +kernel), by decide +kernel,
    by decide +kernel⟩

/-- UnsupportedWidthIsReported: 0 and 33, for every command. -/
theorem witness_UnsupportedWidthIsReported :
    ∀ i ∈ [Instr.pack 0, .pack 33, .unpack 0, .unpack 33, .unpackDelta 0, .unpackDelta 255], i.width < 1 ∨ 32 < i.width := by
  decide

/-- WrongBufferSizeIsReported: one word short, one word long (C-10, C-11, C-12). -/
theorem witness_WrongBufferSizeIsReported :
    ((machine 0 128 128 7 0 []).dstLen.toNat ≠ 4 * 2) ∧ ((machine 0 129 200 8 0 []).srcLen.toNat ≠ 128) ∧
    ((machine 0 128 128 8 0 []).srcLen.toNat ≠ 4 * 2) := by decide

/-- One word past the end of the SPM, for the source (C-14), and for the destination. -/
def srcPastEnd : State := machine (toWord (Config.spmWords - 127)) 128 0 8 0 []
def dstPastEnd : State := machine 0 128 (toWord (Config.spmWords - 7)) 8 0 []

theorem toNat_toWord_spmWords_sub (n : Nat) : (toWord (Config.spmWords - n)).toNat = Config.spmWords - n :=
  (BitVec.toNat_ofNat ..).trans (Nat.mod_eq_of_lt (by have := Config.spmWords_lt; omega))

theorem srcPastEnd_range : Config.spmWords < srcPastEnd.src.toNat + srcPastEnd.srcLen.toNat := by
  have h : srcPastEnd.src.toNat = Config.spmWords - 127 := toNat_toWord_spmWords_sub _
  have h' : srcPastEnd.srcLen.toNat = 128 := rfl
  have := Config.spmWords_ge
  omega

theorem dstPastEnd_range : Config.spmWords < dstPastEnd.dst.toNat + dstPastEnd.dstLen.toNat := by
  have h : dstPastEnd.dst.toNat = Config.spmWords - 7 := toNat_toWord_spmWords_sub _
  have h' : dstPastEnd.dstLen.toNat = 8 := rfl
  have := Config.spmWords_ge
  omega

/-- BufferPastTheScratchpadIsReported: one word past the end, for the source and for the destination; and no wrap
(C-14, C-16). -/
theorem witness_BufferPastTheScratchpadIsReported :
    (∀ s ∈ [srcPastEnd, dstPastEnd],
      s.srcLen.toNat = needSrc (.pack 2) ∧ s.dstLen.toNat = needDst (.pack 2) ∧
      (Config.spmWords < s.src.toNat + s.srcLen.toNat ∨ Config.spmWords < s.dst.toNat + s.dstLen.toNat)) ∧
    (machine 0xFFFFFFFF 128 0 8 0 []).srcLen.toNat = needSrc (.pack 2) ∧
    (machine 0xFFFFFFFF 128 0 8 0 []).dstLen.toNat = needDst (.pack 2) ∧
    (machine 0xFFFFFFFF 128 0 8 0 []).src = 0xFFFFFFFF ∧ (machine 0xFFFFFFFF 128 0 8 0 []).srcLen = 128 := by
  refine ⟨?_, rfl, rfl, rfl, rfl⟩
  simp only [List.forall_mem_cons, List.not_mem_nil, false_imp_iff, implies_true, and_true]
  exact ⟨⟨rfl, rfl, .inl srcPastEnd_range⟩, rfl, rfl, .inr dstPastEnd_range⟩

/-- SharedWordIsReported: word 127 shared (C-18); adjacent buffers (C-19); both in range. -/
theorem witness_SharedWordIsReported :
    (∀ s ∈ [machine 0 128 127 8 0 [], machine 0 128 128 8 0 []],
      s.srcLen.toNat = needSrc (.pack 2) ∧ s.dstLen.toNat = needDst (.pack 2) ∧
      s.src.toNat + s.srcLen.toNat ≤ Config.spmWords ∧ s.dst.toNat + s.dstLen.toNat ≤ Config.spmWords) ∧
    (∃ w, (0 ≤ w ∧ w < 0 + 128) ∧ 127 ≤ w ∧ w < 127 + 8) ∧ ¬ ∃ w, (0 ≤ w ∧ w < 0 + 128) ∧ 128 ≤ w ∧ w < 128 + 8 :=
  ⟨by decide +kernel, ⟨127, by decide⟩, by rintro ⟨w, h⟩; omega⟩

/-- FirstFailingCheckIsReported: a CMD write that ends, for each code: V-C rows C-5, C-9, C-13, C-14, C-18 and U-1. -/
theorem witness_FirstFailingCheckIsReported :
    ((step ((machine 0 0 0 0 0 []).withPending [cmdWrite 0x00000010]) |> outcomeWords 0 0) = some (5, [])) ∧
    ((step ((machine 0 7 0 7 0 []).withPending [cmdWrite 0x00000001]) |> outcomeWords 0 0) = some (1, [])) ∧
    ((step ((machine 1000 100 0 8 0 []).withPending [cmdWrite 0x00000201]) |> outcomeWords 0 0) = some (2, [])) ∧
    (∃ t, step (srcPastEnd.withPending [cmdWrite 0x00000201]) = .next t ∧ t.err = 3) ∧
    ((step ((machine 0 128 127 8 0 []).withPending [cmdWrite 0x00000201]) |> outcomeWords 0 0) = some (4, [])) ∧
    ((step (unpackReady.withPending [cmdWrite 0x00000102]) |> outcomeWords 0 0) = some (0, [])) := by
  refine ⟨by decide +kernel, by decide +kernel, by decide +kernel, ?_, by decide +kernel, by decide +kernel⟩
  have h : outOfRange (((srcPastEnd.withPending [])).withCmd 0x00000201) = true := by
    simp [outOfRange, srcPastEnd_range]
  have hv : validate 2 128 8 (((srcPastEnd.withPending [])).withCmd 0x00000201) = some .bufferOutOfRange := by
    simp only [validate]
    rw [if_neg (by decide), if_neg (by decide), if_pos h]
  rw [step_cmdWrite, issueCommand, show decode 0x00000201 = .legal (.pack 2) from rfl]
  exact ⟨_, congrArg (respondWith .ok) (exec_of_validate (i := .pack 2) hv), rfl⟩

/-- CommandErrorTouchesOnlyStatus, CommandIsAllOrNothing (second case), CommandFrameAndRepetition and
BaseIsIgnoredByPackAndUnpack: a command that ends with an error. -/
theorem witness_CommandErrorTouchesOnlyStatus : ∃ t, exec (.pack 0) packReady = .next t ∧ t.err ≠ 0 :=
  ⟨packReady.withErr 1, rfl, by decide⟩

/-- CommandFrameAndRepetition, CommandIsAllOrNothing, ResultDependsOnOperandsOnly, BaseIsIgnoredByPackAndUnpack: commands
that answer a next state, one of each, and one that faults. -/
theorem witness_CommandFrameAndRepetition :
    (∃ t, exec (.pack 2) packReady = .next t) ∧ (∃ t, exec (.unpack 1) unpackReady = .next t) ∧
    (∃ t, exec (.unpackDelta 1) unpackReady = .next t) ∧
    exec (.unpack 1) (machine 0 4 128 128 0 []) = .fault (.uninitRead 0) :=
  ⟨⟨_, exec_pack_accepted witness_accepted_pack witness_source_pack⟩,
    ⟨_, exec_unpack_accepted witness_accepted_unpack witness_source_unpack⟩,
    ⟨_, exec_unpackDelta_accepted ((validate_eq_none_iff _ _).1 (by decide +kernel)) witness_source_unpack⟩,
    eq_fault (by decide +kernel)⟩

/-- ResultDependsOnOperandsOnly: states that differ in CMD, STATUS.ERR and the destination's old contents. -/
theorem witness_ResultDependsOnOperandsOnly :
    let s' : State := { unpackReady with cmd := 1, err := 3, spm := writeWord unpackReady.spm 200 9 }
    s'.src = unpackReady.src ∧ s'.srcLen = unpackReady.srcLen ∧
    s'.dst = unpackReady.dst ∧ s'.dstLen = unpackReady.dstLen ∧ s'.base = unpackReady.base ∧
    ∀ j, j < unpackReady.srcLen.toNat →
      readWord s'.spm (unpackReady.src.toNat + j) = readWord unpackReady.spm (unpackReady.src.toNat + j) := by
  refine ⟨rfl, rfl, rfl, rfl, rfl, ?_⟩
  decide +kernel

/-- EncodedCommandDecodesToItself, CmdWordIsWidthAndOperation: the last width, 255, is well-formed for each command. -/
theorem witness_EncodedCommandDecodesToItself :
    ∀ i ∈ [Instr.pack 0, .pack 255, .unpack 255, .unpackDelta 255], i.wellFormed = true := by decide

/-- LegalWordIsItsCommandsEncoding, StepRunsTheDecodedCommand: the last word of each command. -/
theorem witness_LegalWordIsItsCommandsEncoding :
    decode 0x0000FF01 = .legal (.pack 255) ∧ decode 0x0000FF02 = .legal (.unpack 255) ∧
    decode 0x0000FF03 = .legal (.unpackDelta 255) := by decide

/-- EveryCmdWordIsACommandOrIllegal, IllegalCmdWordIsRefused: words of each clause at its boundaries. -/
theorem witness_EveryCmdWordIsACommandOrIllegal :
    ((0x0000FF01#32).toNat / 65536 = 0 ∧ (0x0000FF01#32).toNat / 16 % 16 = 0 ∧ (0x0000FF01#32).toNat % 16 = 1) ∧
    ((0x00000002#32).toNat / 65536 = 0 ∧ (0x00000002#32).toNat / 16 % 16 = 0 ∧ (0x00000002#32).toNat % 16 = 2) ∧
    ((0x0000FF03#32).toNat / 65536 = 0 ∧ (0x0000FF03#32).toNat / 16 % 16 = 0 ∧ (0x0000FF03#32).toNat % 16 = 3) ∧
    ReservedCmdWord 0x00000000#32 ∧ ReservedCmdWord 0x00000204#32 ∧ ReservedCmdWord 0x0000020F#32 ∧
    ReservedCmdWord 0x00000211#32 ∧ ReservedCmdWord 0x000002F1#32 ∧ ReservedCmdWord 0x00010201#32 ∧
    ReservedCmdWord 0x80000201#32 := by
  simp [ReservedCmdWord]

/-- EachStepTakesOneEventInOrder: steps on a transaction, on a reset and on nothing all answer a next state. -/
theorem witness_EachStepTakesOneEventInOrder :
    (∃ t, step (unpackReady.withPending [.transaction (.read 32 0x004)]) = .next t) ∧
    (∃ t, step (unpackReady.withPending [.reset]) = .next t) ∧ (∃ t, step (unpackReady.withPending []) = .next t) :=
  ⟨⟨_, rfl⟩, ⟨_, rfl⟩, ⟨_, rfl⟩⟩

/-- IdleMachineKeepsEverything: nothing waits after reset. -/
theorem witness_IdleMachineKeepsEverything : State.reset.pending = [] := rfl

/-- CsrReadReturnsItsCurrentValue: the last CSR is in the list. -/
theorem witness_CsrReadReturnsItsCurrentValue :
    ((0x01C, BitVec.ofNat 32 Config.spmWords) : Nat × Word) ∈ [(0x000, unpackReady.cmd), (0x004, BitVec.ofNat 32 unpackReady.err.toNat),
      (0x008, unpackReady.src), (0x00C, unpackReady.srcLen), (0x010, unpackReady.dst), (0x014, unpackReady.dstLen),
      (0x018, unpackReady.base), (0x01C, BitVec.ofNat 32 Config.spmWords)] := by simp

/-- SpmReadReturnsTheWordOrFaults, SpmWriteStoresAndDefinesTheWord: the first and the last word of the SPM, one defined
and one not. -/
theorem witness_SpmReadReturnsTheWordOrFaults :
    (∀ off ∈ [0x1000, 0x1000 + 4 * (Config.spmWords - 1)],
      off % 4 = 0 ∧ 0x1000 ≤ off ∧ off < 0x1000 + 4 * Config.spmWords) ∧
    readWord unpackReady.spm ((0x1000 - 0x1000) / 4) = some 0xFFFFFFFF ∧
    readWord unpackReady.spm ((0x1000 + 4 * (Config.spmWords - 1) - 0x1000) / 4) = none := by
  have := Config.spmWords_ge
  refine ⟨fun off h => ?_, by decide +kernel, ?_⟩
  · simp only [List.mem_cons, List.not_mem_nil, or_false] at h
    omega
  · exact readWord_writeWords_outside [] 0 _ (.inr (by simp only [List.length_map, List.length_range]; omega))

/-- OnlyAdmittedTransactionsAreServed: refused and admitted transactions at the boundaries, with their steps. -/
theorem witness_OnlyAdmittedTransactionsAreServed :
    (∀ x ∈ [(16, 0x000), (64, 0x1000), (32, 0x01E), (32, 0x020), (32, 0xFFC), (32, 0x1000 + 4 * Config.spmWords)],
      ¬ (x.1 = 32 ∧ x.2 % 4 = 0 ∧ (x.2 < 0x020 ∨ (0x1000 ≤ x.2 ∧ x.2 < 0x1000 + 4 * Config.spmWords)))) ∧
    (∀ x ∈ [(32, 0x000), (32, 0x01C), (32, 0x1000), (32, 0x13FC)],
      (x.1 = 32 ∧ x.2 % 4 = 0 ∧ (x.2 < 0x020 ∨ (0x1000 ≤ x.2 ∧ x.2 < 0x1000 + 4 * Config.spmWords))) ∧
      isNext (step (unpackReady.withPending [.transaction (.write x.1 x.2 0)])) = true) := by
  have := Config.spmWords_ge
  constructor <;> intro x h <;> simp only [List.mem_cons, List.not_mem_nil, or_false] at h
  · rcases h with rfl | rfl | rfl | rfl | rfl | rfl <;> simp only <;> omega
  · rcases h with rfl | rfl | rfl | rfl <;> refine ⟨⟨rfl, rfl, ?_⟩, by decide +kernel⟩ <;> simp only <;> omega

/-- ReadsHaveNoSideEffect: a read that returns data, and one that is refused. -/
theorem witness_ReadsHaveNoSideEffect :
    (∃ t, step (unpackReady.withPending [.transaction (.read 32 0x1000)]) = .next t) ∧
    ∃ t, step (unpackReady.withPending [.transaction (.read 8 0x1000)]) = .next t :=
  ⟨exists_next (by decide +kernel), exists_next (by decide +kernel)⟩

/-- StatusErrChangesOnlyByCommandOrReset: a CMD write that changes the code from 0 to 5, and a reset that clears one. -/
theorem witness_StatusErrChangesOnlyByCommandOrReset :
    (∃ t, step (unpackReady.withPending [cmdWrite 0]) = .next t ∧ t.err ≠ unpackReady.err) ∧
    ∃ t, step ((unpackReady.withErr 2).withPending [.reset]) = .next t ∧ t.err ≠ (unpackReady.withErr 2).err :=
  ⟨⟨_, rfl, by decide⟩, ⟨_, rfl, by decide⟩⟩

/-- CsrsChangeOnlyByTheirOwnWriteOrReset: a step that changes SRC by its own write. -/
theorem witness_CsrsChangeOnlyByTheirOwnWriteOrReset :
    ∃ t, step (unpackReady.withPending [.transaction (.write 32 0x008 77)]) = .next t ∧ t.src ≠ unpackReady.src ∧
      ((0x008, unpackReady.src, t.src) : Nat × Word × Word) ∈ [(0x000, unpackReady.cmd, t.cmd), (0x008, unpackReady.src, t.src),
        (0x00C, unpackReady.srcLen, t.srcLen), (0x010, unpackReady.dst, t.dst), (0x014, unpackReady.dstLen, t.dstLen),
        (0x018, unpackReady.base, t.base)] :=
  ⟨_, rfl, by decide, by simp⟩

/-- ScratchpadByteChangesOnlyByItsWriters: a host write that changes the first byte of word 5, and a reset that undefines
a byte. -/
theorem witness_ScratchpadByteChangesOnlyByItsWriters :
    (∃ t, step (unpackReady.withPending [.transaction (.write 32 0x1014 7)]) = .next t ∧
      readByte t.spm 20 ≠ readByte unpackReady.spm 20) ∧
    ∃ t, step (unpackReady.withPending [.reset]) = .next t ∧ readByte t.spm 0 ≠ readByte unpackReady.spm 0 :=
  ⟨(exists_next_byte (a := 20) (v := 7) (by decide +kernel)).imp fun t h => ⟨h.1, by rw [h.2]; decide +kernel⟩,
    ⟨_, rfl, by decide +kernel⟩⟩

/-- EveryStepKeepsTheInvariant: a state with defined words that meets the invariant, and a step from it. -/
theorem witness_EveryStepKeepsTheInvariant :
    Inv (unpackReady.withPending [.transaction (.write 32 0x13FC 7)]) ∧
    ∃ t, step (unpackReady.withPending [.transaction (.write 32 0x13FC 7)]) = .next t :=
  ⟨⟨by decide +kernel, by decide +kernel, by decide +kernel, by decide⟩, exists_next (by decide +kernel)⟩

/-- ScratchpadIsOneOptionalWordPerIndex: two states that meet the invariant and agree at every index, and an error code. -/
theorem witness_ScratchpadIsOneOptionalWordPerIndex :
    Inv unpackReady ∧ Inv (unpackReady.withErr 5) ∧
    (∀ w : Fin Config.spmWords, unpackReady.spmAt w = (unpackReady.withErr 5).spmAt w) ∧
    (unpackReady.withErr 5).err.toNat ≤ 5 :=
  ⟨⟨by decide +kernel, by decide +kernel, by decide +kernel, by decide⟩,
    ⟨by decide +kernel, by decide +kernel, by decide +kernel, by decide⟩, fun _ => rfl, by decide⟩

/-- PackAndUnpackAreInverse, DeltaDecodeOfPackedDeltas and the algorithms' statements: buffers of the right lengths at the
first and the last width. -/
theorem witness_PackAndUnpackAreInverse :
    (1 ≤ 1 ∧ 1 ≤ 32 ∧ (List.replicate 128 (1 : Word)).length = 128 ∧ (List.replicate 4 (9 : Word)).length = 4 * 1) ∧
    (1 ≤ 32 ∧ 32 ≤ 32 ∧ (∀ x ∈ List.replicate 128 (1 : Word), x.toNat < 2 ^ 32) ∧
      (List.replicate 128 (9 : Word)).length = 4 * 32) := by
  refine ⟨⟨by decide, by decide, by simp, by simp⟩, by decide, by decide, fun x _ => x.isLt, by simp⟩

end Sys2Proof.Machine
end

section
/-! PROOFS. The state (10_state.md): the scratchpad's part of the invariant and what keeps it, the scratchpad as one
optional word per index, and what changes STATUS.ERR. -/

namespace Sys2Proof.Machine

/-! ## The scratchpad's part of the invariant -/

/-- What `Inv` says of the scratchpad alone: canonical form, whole words, inside the SPM (R44, R45, R48). -/
structure SpmInv (m : Memory) : Prop where
  canonical : m.wf
  whole_words : ∀ c ∈ m, defined m (c.1 / 4) = true
  inside : ∀ c ∈ m, c.1 < 4 * Config.spmWords

theorem inv_iff (s : State) : Inv s ↔ SpmInv s.spm ∧ s.err.toNat ≤ 5 :=
  ⟨fun ⟨hc, hw, hi, he⟩ => ⟨⟨hc, hw, hi⟩, he⟩, fun ⟨⟨hc, hw, hi⟩, he⟩ => ⟨hc, hw, hi, he⟩⟩

theorem spmInv_nil : SpmInv [] := ⟨List.Pairwise.nil, by simp, by simp⟩

theorem defined_writeWords_inside (m : Memory) (w : Nat) (vs : List Word) {x : Nat}
    (hlo : w ≤ x) (hhi : x < w + vs.length) : defined (writeWords m w vs) x = true := by
  obtain ⟨j, rfl⟩ := Nat.exists_eq_add_of_le hlo
  rw [defined, readWord_writeWords m w vs (by omega), Option.isSome_some]

theorem defined_writeWords_outside (m : Memory) (w : Nat) (vs : List Word) {x : Nat}
    (h : x < w ∨ w + vs.length ≤ x) : defined (writeWords m w vs) x = defined m x := by
  rw [defined, readWord_writeWords_outside m w vs h, defined]

/-- A cell after a buffer's write was there before, or lies in one of the buffer's words. -/
theorem mem_writeWords {m : Memory} {w : Nat} {vs : List Word} {c : Host.Cell} (h : c ∈ writeWords m w vs) :
    c ∈ m ∨ (w ≤ c.1 / 4 ∧ c.1 / 4 < w + vs.length) := by
  rcases mem_writeBytes h with ⟨hm, -⟩ | hin
  · exact .inl hm
  · rw [length_flatMap_wordBytes, wordAddr] at hin
    exact .inr (by omega)

/-- A write of whole words inside the SPM keeps the scratchpad's invariant. -/
theorem SpmInv.writeWords {m : Memory} (h : SpmInv m) {w : Nat} {vs : List Word}
    (hfits : w + vs.length ≤ Config.spmWords) : SpmInv (writeWords m w vs) where
  canonical := writeWords_wf h.canonical w vs
  whole_words c hc := by
    by_cases hin : w ≤ c.1 / 4 ∧ c.1 / 4 < w + vs.length
    · exact defined_writeWords_inside m w vs hin.1 hin.2
    · have hm : c ∈ m := (mem_writeWords hc).resolve_right hin
      rw [defined_writeWords_outside m w vs (by omega)]
      exact h.whole_words c hm
  inside c hc := by
    rcases mem_writeWords hc with hm | hin
    · exact h.inside c hm
    · omega

/-! ## Every step keeps the invariant -/

@[simp] theorem writeCsr_spm (s : State) (v : Word) (r : Csr) : (writeCsr s v r).spm = s.spm := by
  cases r <;> rfl

@[simp] theorem writeCsr_err (s : State) (v : Word) (r : Csr) : (writeCsr s v r).err = s.err := by
  cases r <;> rfl

/-- The codes of R230 are 1 to 5. -/
theorem errCode_le (e : CmdError) : (errCode e).toNat ≤ 5 := by
  cases e <;> decide

/-- The invariant speaks of the scratchpad and STATUS.ERR only. -/
theorem Inv.congr {s t : State} (hs : Inv s) (hspm : t.spm = s.spm) (herr : t.err = s.err) : Inv t := by
  rw [inv_iff] at hs ⊢
  rwa [hspm, herr]

theorem Inv.withErr_errCode {s : State} (hs : Inv s) (e : CmdError) : Inv (s.withErr (errCode e)) :=
  (inv_iff _).2 ⟨((inv_iff s).1 hs).1, errCode_le e⟩

theorem Inv.complete {s : State} (hs : Inv s) {dst : List Word} (hfits : s.dst.toNat + dst.length ≤ Config.spmWords) :
    Inv (complete dst s) :=
  (inv_iff _).2 ⟨((inv_iff s).1 hs).1.writeWords hfits, by simp⟩

theorem exec_keeps_inv {i : Instr} {s t : State} (hs : Inv s) (h : exec i s = .next t) : Inv t := by
  rcases exec_next_cases h with ⟨e, -, rfl⟩ | ⟨hacc, -, dst, -, hlen, rfl⟩
  · exact hs.withErr_errCode e
  · exact hs.complete (hlen ▸ hacc.dst_fits)

theorem issueCommand_keeps_inv {v : Word} {s t : State} (hs : Inv s) (h : issueCommand v s = .next t) : Inv t := by
  have hcmd : Inv (s.withCmd v) := hs.congr rfl rfl
  rcases issueCommand_next_cases h with ⟨_, -, rfl⟩ | ⟨i, -, hexec⟩
  · exact hcmd.withErr_errCode _
  · exact exec_keeps_inv hcmd hexec

theorem perform_keeps_inv {s t : State} {e : HostEvent} (hs : Inv s) (h : perform s e = .next t) : Inv t := by
  rcases perform_next_cases h with ⟨rfl, -⟩ | ⟨_, _, -, -, rfl⟩ | ⟨_, _, _, _, -, -, rfl, -⟩ | ⟨v, u, -, hu, rfl⟩ |
    ⟨r, v, -, -, rfl⟩ | ⟨_, v, w, -, -, -, rfl⟩
  · -- reset
    exact (inv_iff _).2 ⟨spmInv_nil, by simp⟩
  · -- a refused transaction
    exact hs.congr rfl rfl
  · -- a read
    exact hs.congr rfl rfl
  · -- a CMD write
    exact (issueCommand_keeps_inv hs hu).congr rfl rfl
  · -- a write to another CSR
    exact hs.congr (by simp) (by simp)
  · -- a write of one SPM word
    obtain ⟨hspm, herr⟩ := (inv_iff s).1 hs
    exact (inv_iff _).2 ⟨hspm.writeWords (vs := [v]) w.isLt, herr⟩

/-- Settles O53: by the cases of what a step can do, each of which writes whole words inside the SPM or none, and leaves
STATUS.ERR or gives it a listed code. -/
theorem everyStepKeepsTheInvariant : Obligations.EveryStepKeepsTheInvariant := by
  intro s t hs h
  rcases step_next_cases h with ⟨-, rfl⟩ | ⟨e, rest, -, hperform⟩
  · exact hs
  · have hrest : Inv (s.withPending rest) := hs.congr rfl rfl
    exact perform_keeps_inv hrest hperform

/-- Settles O52: nothing is listed after reset, and the code is 0. -/
theorem resetMeetsTheInvariant : Obligations.ResetMeetsTheInvariant :=
  (inv_iff _).2 ⟨spmInv_nil, Nat.zero_le 5⟩

/-! ## What changes STATUS.ERR -/

/-- An event that changes STATUS.ERR is a CMD write or a reset: what is left after the other cases of what an event can
do (R37). -/
theorem perform_changes_err {s t : State} {e : HostEvent} (h : perform s e = .next t) (hne : t.err ≠ s.err) :
    (∃ v, e = cmdWrite v) ∨ e = .reset ∨ ∃ v, e = .resetDuringCommand v := by
  rcases perform_next_cases h with ⟨-, hreset⟩ | ⟨_, _, -, -, rfl⟩ | ⟨_, _, _, _, -, -, rfl, -⟩ | ⟨v, _, hcmd, -⟩ |
    ⟨r, v, -, -, rfl⟩ | ⟨_, _, _, -, -, -, rfl⟩
  · -- reset
    exact .inr hreset
  · -- a refused transaction
    exact absurd rfl hne
  · -- a read
    exact absurd rfl hne
  · -- a CMD write
    exact .inl ⟨v, hcmd⟩
  · -- a write to another CSR
    exact absurd (by simp) hne
  · -- a write of one SPM word
    exact absurd rfl hne

/-- Settles O16: an idle step changes nothing, and an event that changes the code is a CMD write or a reset. -/
theorem statusErrChangesOnlyByCommandOrReset : Obligations.StatusErrChangesOnlyByCommandOrReset := by
  intro s t h hne
  rcases step_next_cases h with ⟨-, rfl⟩ | ⟨e, rest, hpending, hperform⟩
  · exact absurd rfl hne
  · exact ⟨e, rest, hpending, perform_changes_err hperform hne⟩

/-! ## The scratchpad is one optional word per index -/

/-- The four bytes of a word put together from bytes are those bytes (R79). -/
theorem wordBytes_wordOfBytes (b0 b1 b2 b3 : Byte) : wordBytes (wordOfBytes b0 b1 b2 b3) = [b0, b1, b2, b3] := by
  simp only [wordBytes, List.cons.injEq, and_true]
  refine ⟨?_, ?_, ?_, ?_⟩ <;> apply BitVec.eq_of_getLsbD_eq <;> intro i hi <;>
    simp only [wordOfBytes, BitVec.getLsbD_extractLsb, BitVec.getLsbD_append, hi, decide_true, Bool.true_and]
  · rw [if_pos (by omega), Nat.zero_add]
  · rw [if_neg (by omega), if_pos (by omega), Nat.add_sub_cancel_left]
  · rw [if_neg (by omega), if_neg (by omega), if_pos (by omega), Nat.sub_sub, Nat.add_sub_cancel_left]
  · rw [if_neg (by omega), if_neg (by omega), if_neg (by omega), Nat.sub_sub, Nat.sub_sub, Nat.add_sub_cancel_left]

/-- Byte `n` of a defined word. -/
theorem readByte_of_readWord {m : Memory} {w : Nat} {v : Word} (h : readWord m w = some v) {n : Nat} (hn : n < 4) :
    readByte m (4 * w + n) = (wordBytes v)[n]? := by
  unfold readWord at h
  split at h
  · rename_i b0 b1 b2 b3 h0 h1 h2 h3
    obtain rfl := Option.some.inj h
    rw [wordBytes_wordOfBytes]
    interval_cases n <;> assumption
  · simp at h

/-- In a scratchpad of whole words, a byte is that byte of its word, if its word is defined. -/
theorem SpmInv.readByte_eq {m : Memory} (h : SpmInv m) (a : Nat) :
    readByte m a = (readWord m (a / 4)).bind fun v => (wordBytes v)[a % 4]? := by
  cases hw : readWord m (a / 4) with
  | none =>
    refine readByte_eq_none fun c hc ha => ?_
    have hdef := h.whole_words c hc
    rw [ha, defined, hw] at hdef
    cases hdef
  | some v =>
    have hbyte := readByte_of_readWord hw (Nat.mod_lt a (by decide : 0 < 4))
    rwa [Nat.div_add_mod] at hbyte

/-- No word at or past the end of the SPM is defined. -/
theorem SpmInv.readWord_outside {m : Memory} (h : SpmInv m) {w : Nat} (hw : Config.spmWords ≤ w) :
    readWord m w = none := by
  have hbyte : readByte m (wordAddr w) = none := readByte_eq_none fun c hc ha => by
    have := h.inside c hc
    rw [ha, wordAddr] at this
    omega
  simp only [readWord, hbyte]

/-- Scratchpads that meet the invariant and agree at every index below `SPM_WORDS` are the same list. -/
theorem SpmInv.ext {m m' : Memory} (h : SpmInv m) (h' : SpmInv m')
    (hwords : ∀ w < Config.spmWords, readWord m w = readWord m' w) : m = m' := by
  refine Memory.ext_of_wf h.canonical h'.canonical fun a => ?_
  have hword : readWord m (a / 4) = readWord m' (a / 4) := by
    rcases Nat.lt_or_ge (a / 4) Config.spmWords with hlt | hge
    · exact hwords _ hlt
    · rw [h.readWord_outside hge, h'.readWord_outside hge]
  rw [h.readByte_eq, h'.readByte_eq, hword]

/-- The scratchpad that holds `g w`, a word or nothing, at each of the first `n` words. -/
def spmOfWords (g : Nat → Option Word) : Nat → Memory
  | 0 => []
  | n + 1 =>
    match g n with
    | none => spmOfWords g n
    | some v => writeWord (spmOfWords g n) n v

theorem spmOfWords_inv (g : Nat → Option Word) {n : Nat} (hn : n ≤ Config.spmWords) : SpmInv (spmOfWords g n) := by
  induction n with
  | zero => exact spmInv_nil
  | succ n ih =>
    have hprev := ih (by omega)
    rw [spmOfWords]
    split
    · exact hprev
    · exact hprev.writeWords hn

theorem readWord_spmOfWords (g : Nat → Option Word) (n w : Nat) :
    readWord (spmOfWords g n) w = if w < n then g w else none := by
  induction n with
  | zero => rfl
  | succ n ih =>
    rw [spmOfWords]
    split
    next hg =>
      rw [ih]
      rcases Nat.lt_trichotomy w n with h | rfl | h
      · rw [if_pos h, if_pos (by omega)]
      · rw [if_neg (by omega), if_pos (by omega), hg]
      · rw [if_neg (by omega), if_neg (by omega)]
    next v hg =>
      rcases Nat.lt_trichotomy w n with h | rfl | h
      · rw [writeWord, readWord_writeWords_outside _ _ _ (.inl h), ih, if_pos h, if_pos (by omega)]
      · rw [writeWord, if_pos (by omega), hg]
        exact readWord_writeWords _ w [v] (j := 0) (by simp)
      · rw [writeWord, readWord_writeWords_outside _ _ _ (.inr h), ih, if_neg (by omega), if_neg (by omega)]

/-- The words of an assignment to the indices below `SPM_WORDS`, by number. -/
def wordsByNumber (f : Fin Config.spmWords → Option Word) (w : Nat) : Option Word :=
  if h : w < Config.spmWords then f ⟨w, h⟩ else none

theorem readWord_spmOfWords_wordsByNumber (f : Fin Config.spmWords → Option Word) (w : Fin Config.spmWords) :
    readWord (spmOfWords (wordsByNumber f) Config.spmWords) w = f w := by
  rw [readWord_spmOfWords, if_pos w.isLt, wordsByNumber, dif_pos w.isLt]

/-- Settles O54: whole words determine every byte, so canonical lists that agree on the words are equal; and writing the
words of an assignment one by one gives its scratchpad. -/
theorem scratchpadIsOneOptionalWordPerIndex : Obligations.ScratchpadIsOneOptionalWordPerIndex := by
  constructor
  · intro s t hs ht hwords
    exact SpmInv.ext ((inv_iff s).1 hs).1 ((inv_iff t).1 ht).1 fun w hw => hwords ⟨w, hw⟩
  · intro s f herr
    have hread := readWord_spmOfWords_wordsByNumber f
    refine ⟨spmOfWords (wordsByNumber f) Config.spmWords, (inv_iff _).2 ⟨spmOfWords_inv _ le_rfl, herr⟩,
      fun w => ⟨hread w, ?_⟩⟩
    rw [State.definedAt_eq]
    exact congrArg Option.isSome (hread w)

/-! ## Reset values, and BASE -/

/-- Settles O19: the reset values of R34 and R45, and the bound of R7. -/
theorem resetStateHasTheSpecsValues : Obligations.ResetStateHasTheSpecsValues :=
  ⟨rfl, rfl, rfl, rfl, rfl, rfl, rfl, toNat_readCsr_spmSize _, Config.spmWords_ge, fun _ => rfl⟩

/-- The outcome with `f` applied to the next state, if there is one. -/
def mapNext (f : State → State) : Host.Outcome State Fault Refusal → Host.Outcome State Fault Refusal
  | .next s => .next (f s)
  | .fault r => .fault r
  | .refused r => .refused r

/-- The frame of a command whose compute phase does not depend on BASE carries BASE through (R149). -/
theorem runCommand_withBase (b need_src need_dst : Nat) (compute : List Word → List Word) (s : State) (x : Word) :
    runCommand b need_src need_dst compute (s.withBase x) =
      mapNext (·.withBase x) (runCommand b need_src need_dst compute s) := by
  have hvalidate : validate b need_src need_dst (s.withBase x) = validate b need_src need_dst s := rfl
  simp only [runCommand, hvalidate, State.withBase_spm, State.withBase_src, State.withBase_srcLen]
  cases validate b need_src need_dst s with
  | some e => rfl
  | none => cases readWords s.spm s.src.toNat s.srcLen.toNat <;> rfl

/-- PACK and UNPACK carry BASE through: their compute phases do not read it (R170, R190). -/
theorem exec_withBase {i : Instr} {b : Nat} (hi : i = .pack b ∨ i = .unpack b) (s : State) (x : Word) :
    exec i (s.withBase x) = mapNext (·.withBase x) (exec i s) := by
  rcases hi with rfl | rfl
  · exact runCommand_withBase b _ _ (packBlock b) s x
  · exact runCommand_withBase b _ _ (unpackBlock b) s x

/-- Settles O42: both commands carry BASE through. -/
theorem baseIsIgnoredByPackAndUnpack : Obligations.BaseIsIgnoredByPackAndUnpack := by
  intro b s x i hi
  have hbase := exec_withBase hi s x
  constructor
  · intro t h
    rw [h] at hbase
    exact hbase
  · intro f h
    rw [h] at hbase
    exact hbase

end Sys2Proof.Machine
end

section
/-! PROOFS. The host port (20_memory.md): what a transaction is answered, which transactions are admitted, what reads
and writes of the CSRs and of the SPM window do, and what changes a byte of the scratchpad. -/

namespace Sys2Proof.Machine

/-! ## Words in memory (R76, R79) -/

theorem readWord_writeWord_same (m : Memory) (w : Nat) (v : Word) : readWord (writeWord m w v) w = some v :=
  readWord_writeWords m w [v] (j := 0) Nat.one_pos

/-- Eight bits of a word from bit `lo` on, in arithmetic. -/
theorem extractLsb_byte (v : Word) (hi lo : Nat) (h : hi - lo + 1 = 8) :
    (v.extractLsb hi lo).cast h = BitVec.ofNat 8 (v.toNat / 2 ^ lo) := by
  apply BitVec.eq_of_toNat_eq
  simp [Nat.shiftRight_eq_div_pow, h]

/-- Byte `n` of a word is its bits [8n+7 : 8n] (R79). -/
theorem wordBytes_getElem? (v : Word) {n : Nat} (hn : n < 4) :
    (wordBytes v)[n]? = some (BitVec.ofNat 8 (v.toNat / 2 ^ (8 * n))) := by
  interval_cases n
  · exact congrArg some (extractLsb_byte v 7 0 rfl)
  · exact congrArg some (extractLsb_byte v 15 8 rfl)
  · exact congrArg some (extractLsb_byte v 23 16 rfl)
  · exact congrArg some (extractLsb_byte v 31 24 rfl)

/-- Settles O43: the word reads back, and the bytes of a word that reads are its byte fields. -/
theorem wordsAreLittleEndianBytes : Obligations.WordsAreLittleEndianBytes := by
  intro m w v
  have hword := readWord_writeWord_same m w v
  refine ⟨hword, fun n hn => ?_⟩
  rw [readByte_of_readWord hword hn, wordBytes_getElem? v hn]

/-! ## Admission (R72) -/

/-- Event `e` is a read or a write of `width` bits at byte offset `off`. -/
def HostEvent.AccessesAt (e : HostEvent) (width off : Nat) : Prop :=
  e = .transaction (.read width off) ∨ ∃ v, e = .transaction (.write width off v)

theorem HostEvent.AccessesAt.unique {e : HostEvent} {width off width' off' : Nat} (h : e.AccessesAt width off)
    (h' : e.AccessesAt width' off') : width = width' ∧ off = off' := by
  rcases h with rfl | ⟨v, rfl⟩ <;> rcases h' with h' | ⟨v', h'⟩ <;> cases h' <;> exact ⟨rfl, rfl⟩

theorem HostEvent.AccessesAt.isTransaction {e : HostEvent} {width off : Nat} (h : e.AccessesAt width off) :
    ∃ tr, e = .transaction tr := by
  rcases h with rfl | ⟨v, rfl⟩ <;> exact ⟨_, rfl⟩

/-- The CSRs take the aligned offsets below 0x020 (R34). -/
theorem exists_csr_offset_iff (off : Nat) : (∃ r : Csr, r.offset = off) ↔ off % 4 = 0 ∧ off < 0x020 := by
  constructor
  · rintro ⟨r, rfl⟩
    cases r <;> decide
  · rintro ⟨h4, hlt⟩
    obtain ⟨k, rfl⟩ := Nat.dvd_of_mod_eq_zero h4
    have hk : k < 8 := by omega
    interval_cases k
    exacts [⟨.cmd, rfl⟩, ⟨.status, rfl⟩, ⟨.src, rfl⟩, ⟨.srcLen, rfl⟩, ⟨.dst, rfl⟩, ⟨.dstLen, rfl⟩, ⟨.base, rfl⟩,
      ⟨.spmSize, rfl⟩]

/-- The three conditions of R72. -/
theorem admittedTarget_ne_none_iff (width off : Nat) :
    admittedTarget width off ≠ none ↔
      width = 32 ∧ off % 4 = 0 ∧ (off < 0x020 ∨ (0x1000 ≤ off ∧ off < 0x1000 + 4 * Config.spmWords)) := by
  rw [Option.ne_none_iff_exists']
  constructor
  · rintro ⟨tg, htg⟩
    obtain ⟨hwidth, h4, ⟨r, -, hr⟩ | ⟨hlo, w, hw, -⟩⟩ := (admittedTarget_eq_some_iff width off tg).1 htg
    · exact ⟨hwidth, h4, .inl ((exists_csr_offset_iff off).1 ⟨r, hr⟩).2⟩
    · exact ⟨hwidth, h4, .inr ⟨hlo, (windowIndex_lt_iff hlo).1 (hw ▸ w.isLt)⟩⟩
  · rintro ⟨rfl, h4, hcsr | ⟨hlo, hhi⟩⟩
    · obtain ⟨r, hr⟩ := (exists_csr_offset_iff off).2 ⟨h4, hcsr⟩
      exact ⟨.csr r, (admittedTarget_eq_some_iff 32 off _).2 ⟨rfl, h4, .inl ⟨r, rfl, hr⟩⟩⟩
    · exact ⟨_, admittedTarget_spmWord h4 hlo ((windowIndex_lt_iff hlo).2 hhi)⟩

theorem admittedTarget_csr (r : Csr) : admittedTarget 32 r.offset = some (.csr r) :=
  (admittedTarget_eq_some_iff 32 _ _).2 ⟨rfl, ((exists_csr_offset_iff _).1 ⟨r, rfl⟩).1, .inl ⟨r, rfl, rfl⟩⟩

/-! ## One transaction, refused or admitted -/

theorem perform_refused {e : HostEvent} {width off : Nat} (he : e.AccessesAt width off)
    (h : admittedTarget width off = none) (s : State) : perform s e = .next (s.respond (.busError off)) := by
  rcases he with rfl | ⟨v, rfl⟩ <;> simp only [perform, hostTransaction, h]

theorem perform_read_admitted {width off : Nat} {tg : Target} (h : admittedTarget width off = some tg) (s : State) :
    perform s (.transaction (.read width off)) = hostRead s tg := by
  simp only [perform, hostTransaction, h]

theorem perform_write_admitted {width off : Nat} {tg : Target} (h : admittedTarget width off = some tg) (s : State)
    (v : Word) : perform s (.transaction (.write width off v)) = hostWrite v s tg := by
  simp only [perform, hostTransaction, h]

theorem hostRead_spmWord_defined {s : State} {w : Fin Config.spmWords} {x : Word} (h : s.spmAt w = some x) :
    hostRead s (.spmWord w) = .next (s.respond (.data x)) := by
  simp only [hostRead, h]

theorem hostRead_spmWord_undefined {s : State} {w : Fin Config.spmWords} (h : s.spmAt w = none) :
    hostRead s (.spmWord w) = .fault (.uninitRead w) := by
  simp only [hostRead, h]

/-- An admitted read that answers a next state answers data and nothing else. -/
theorem hostRead_next {s t : State} {tg : Target} (h : hostRead s tg = .next t) : ∃ x, t = s.respond (.data x) := by
  cases tg with
  | csr r => exact ⟨_, (Host.Outcome.next.inj h).symm⟩
  | spmWord w =>
    cases hw : s.spmAt w with
    | none =>
      rw [hostRead_spmWord_undefined hw] at h
      cases h
    | some x =>
      rw [hostRead_spmWord_defined hw] at h
      exact ⟨x, (Host.Outcome.next.inj h).symm⟩

/-- A write to any CSR but CMD only stores the value or ignores it (R74). -/
theorem hostWrite_csr {r : Csr} (hr : r ≠ .cmd) (v : Word) (s : State) :
    hostWrite v s (.csr r) = .next ((writeCsr s v r).respond .ok) := by
  cases r with
  | cmd => exact absurd rfl hr
  | _ => rfl

/-! ## The host's two lists -/

/-- A command does not touch the host's side of the port. -/
theorem exec_keeps_port {i : Instr} {s t : State} (h : exec i s = .next t) :
    t.pending = s.pending ∧ t.responses = s.responses := by
  rcases exec_next_cases h with ⟨e, -, rfl⟩ | ⟨-, -, dst, -, -, rfl⟩
  · exact ⟨rfl, rfl⟩
  · exact ⟨rfl, rfl⟩

theorem issueCommand_keeps_port {v : Word} {s t : State} (h : issueCommand v s = .next t) :
    t.pending = s.pending ∧ t.responses = s.responses := by
  rcases issueCommand_next_cases h with ⟨_, -, rfl⟩ | ⟨i, -, hexec⟩
  · exact ⟨rfl, rfl⟩
  · exact exec_keeps_port (s := s.withCmd v) hexec

@[simp] theorem writeCsr_pending (s : State) (v : Word) (r : Csr) : (writeCsr s v r).pending = s.pending := by
  cases r <;> rfl

@[simp] theorem writeCsr_responses (s : State) (v : Word) (r : Csr) : (writeCsr s v r).responses = s.responses := by
  cases r <;> rfl

/-- What one event does to the host's side: the events to come stay, a reset is not answered, and a transaction gets one
response, which is `BusError` only if the transaction was not admitted. -/
theorem perform_port {s t : State} {e : HostEvent} (h : perform s e = .next t) :
    t.pending = s.pending ∧
      (((e = .reset ∨ ∃ v, e = .resetDuringCommand v) ∧ t.responses = s.responses) ∨
        ∃ width off r, e.AccessesAt width off ∧ t.responses = s.responses ++ [r] ∧
          ∀ o, r = .busError o → admittedTarget width off = none) := by
  rcases perform_next_cases h with ⟨rfl, hreset⟩ | ⟨width, off, he, hnone, rfl⟩ | ⟨width, off, x, _, he, -, rfl, -⟩ |
    ⟨v, u, he, hu, rfl⟩ | ⟨r, v, -, he, rfl⟩ | ⟨off, v, w, he, -, -, rfl⟩
  · -- reset
    exact ⟨rfl, .inl ⟨hreset, rfl⟩⟩
  · -- a refused transaction
    exact ⟨rfl, .inr ⟨width, off, _, he, rfl, fun _ _ => hnone⟩⟩
  · -- a read
    exact ⟨rfl, .inr ⟨width, off, _, .inl he, rfl, nofun⟩⟩
  · -- a CMD write
    obtain ⟨hpending, hresponses⟩ := issueCommand_keeps_port hu
    exact ⟨hpending, .inr ⟨_, _, .ok, .inr ⟨v, he⟩, by simp [hresponses], nofun⟩⟩
  · -- a write to another CSR
    exact ⟨by simp, .inr ⟨_, _, .ok, .inr ⟨v, he⟩, by simp, nofun⟩⟩
  · -- a write of one SPM word
    exact ⟨rfl, .inr ⟨_, _, .ok, .inr ⟨v, he⟩, rfl, nofun⟩⟩

/-- Settles O8: an idle step keeps both lists; otherwise the step performs the first event with the rest waiting, and
that leaves the rest and answers a transaction only. -/
theorem eachStepTakesOneEventInOrder : Obligations.EachStepTakesOneEventInOrder := by
  intro s t h
  rcases step_next_cases h with ⟨hnil, rfl⟩ | ⟨e, rest, hpending, hperform⟩
  · simp [hnil]
  · obtain ⟨hrest, ⟨hreset, hsame⟩ | ⟨_, _, r, haccess, hadd, -⟩⟩ := perform_port hperform
    · -- a reset
      rw [hpending]
      refine ⟨hrest, ?_, fun _ => hsame⟩
      rintro ⟨tr, _, heq⟩
      obtain ⟨rfl, -⟩ := List.cons.inj heq
      rcases hreset with hreset | ⟨v, hreset⟩ <;> cases hreset
    · -- a transaction
      obtain ⟨tr, rfl⟩ := haccess.isTransaction
      rw [hpending]
      exact ⟨hrest, fun _ => ⟨r, hadd⟩, fun hno => absurd ⟨tr, rest, rfl⟩ hno⟩

/-- Settles O14: a transaction that fails R72's conditions names no target and is refused; and `BusError` is answered to
no other. -/
theorem onlyAdmittedTransactionsAreServed : Obligations.OnlyAdmittedTransactionsAreServed := by
  intro s rest width off v e he
  have haccess : e.AccessesAt width off := he.imp id fun h => ⟨v, h⟩
  rw [← admittedTarget_ne_none_iff, step_withPending_cons]
  constructor
  · intro hrefused
    exact perform_refused haccess (not_not.1 hrefused) _
  · intro hadmitted t ht o hbus
    obtain ⟨-, ⟨-, hsame⟩ | ⟨width', off', r, haccess', hadd, hnone⟩⟩ := perform_port ht
    · -- a reset answers nothing
      simp [hsame] at hbus
    · obtain ⟨rfl, rfl⟩ := haccess.unique haccess'
      have hr : r = .busError o := by simpa [hadd] using hbus
      exact hadmitted (hnone o hr)

/-! ## Reads -/

/-- Settles O15: a read is refused, or admitted and answered data; either only adds a response. -/
theorem readsHaveNoSideEffect : Obligations.ReadsHaveNoSideEffect := by
  intro s t rest width off h
  rw [step_withPending_cons] at h
  cases htarget : admittedTarget width off with
  | none =>
    rw [perform_refused (.inl rfl) htarget] at h
    cases h
    rfl
  | some tg =>
    rw [perform_read_admitted htarget] at h
    obtain ⟨x, rfl⟩ := hostRead_next h
    rfl

/-- Settles O12: the offset names the word, which is read if it is defined. -/
theorem spmReadReturnsTheWordOrFaults : Obligations.SpmReadReturnsTheWordOrFaults := by
  intro s rest off h4 hlo hhi
  have htarget := admittedTarget_spmWord h4 hlo ((windowIndex_lt_iff hlo).2 hhi)
  rw [step_withPending_cons, perform_read_admitted htarget]
  exact ⟨fun x hx => hostRead_spmWord_defined hx, fun hnone => hostRead_spmWord_undefined hnone⟩

/-- STATUS reads as its code, zero-extended (R36). -/
theorem statusWord_eq (err : BitVec 4) : statusWord err = BitVec.ofNat 32 err.toNat := by
  apply BitVec.eq_of_toNat_eq
  have hfits : err.toNat < 2 ^ 32 := Nat.lt_of_lt_of_le err.isLt (by decide)
  rw [statusWord, BitVec.toNat_append, BitVec.toNat_ofNat 0, BitVec.toNat_ofNat, Nat.mod_eq_of_lt hfits]
  simp

theorem step_read_csr (s : State) (rest : List HostEvent) (r : Csr) :
    step (s.withPending (.transaction (.read 32 r.offset) :: rest)) =
      .next { s with pending := rest, responses := s.responses ++ [.data (readCsr s r)] } := by
  rw [step_withPending_cons, perform_read_admitted (admittedTarget_csr r)]
  cases r <;> rfl

/-- Settles O10: the table lists each CSR's offset with what the CSR reads as. -/
theorem csrReadReturnsItsCurrentValue : Obligations.CsrReadReturnsItsCurrentValue := by
  intro s rest off x hmem
  obtain ⟨r, rfl, rfl⟩ : ∃ r : Csr, off = r.offset ∧ x = readCsr s r := by
    rw [← statusWord_eq] at hmem
    simp only [List.mem_cons, Prod.mk.injEq, List.not_mem_nil, or_false] at hmem
    rcases hmem with h | h | h | h | h | h | h | h
    exacts [⟨.cmd, h⟩, ⟨.status, h⟩, ⟨.src, h⟩, ⟨.srcLen, h⟩, ⟨.dst, h⟩, ⟨.dstLen, h⟩, ⟨.base, h⟩, ⟨.spmSize, h⟩]
  exact step_read_csr s rest r

/-! ## Writes -/

theorem step_write_csr {r : Csr} (hr : r ≠ .cmd) (s : State) (rest : List HostEvent) (v : Word) :
    step (s.withPending (.transaction (.write 32 r.offset v) :: rest)) =
      .next ((writeCsr (s.withPending rest) v r).respond .ok) := by
  rw [step_withPending_cons, perform_write_admitted (admittedTarget_csr r), hostWrite_csr hr]

/-- Settles O11: each of the seven is a CSR other than CMD. -/
theorem csrWriteStoresOrIsIgnored : Obligations.CsrWriteStoresOrIsIgnored := by
  intro s rest v
  exact ⟨step_write_csr (r := .src) nofun s rest v, step_write_csr (r := .srcLen) nofun s rest v,
    step_write_csr (r := .dst) nofun s rest v, step_write_csr (r := .dstLen) nofun s rest v,
    step_write_csr (r := .base) nofun s rest v, step_write_csr (r := .status) nofun s rest v,
    step_write_csr (r := .spmSize) nofun s rest v⟩

/-- Settles O13: the offset names the word, and the write of one word is `writeWord`. -/
theorem spmWriteStoresAndDefinesTheWord : Obligations.SpmWriteStoresAndDefinesTheWord := by
  intro s rest off v h4 hlo hhi
  have htarget := admittedTarget_spmWord h4 hlo ((windowIndex_lt_iff hlo).2 hhi)
  rw [step_withPending_cons, perform_write_admitted htarget]
  exact ⟨_, rfl, rfl, readWord_writeWord_same _ _ v, fun a ha => readByte_writeWords_outside _ _ [v] ha⟩

/-! ## What changes a byte of the scratchpad -/

/-- A byte that the write of a buffer changes lies in the buffer. -/
theorem inside_of_readByte_writeWords_ne {m : Memory} {w : Nat} {vs : List Word} {a : Nat}
    (h : readByte (writeWords m w vs) a ≠ readByte m a) : 4 * w ≤ a ∧ a < 4 * (w + vs.length) := by
  have houtside : ¬ OutsideWords w vs.length a := fun ho => h (readByte_writeWords_outside m w vs ho)
  simpa only [OutsideWords, not_or, not_lt, not_le] using houtside

/-- A command that changes a byte succeeded, and its destination holds the byte (R149, R151). -/
theorem exec_changes_byte {i : Instr} {s t : State} {a : Nat} (h : exec i s = .next t)
    (hne : readByte t.spm a ≠ readByte s.spm a) :
    t.err = 0 ∧ 4 * s.dst.toNat ≤ a ∧ a < 4 * (s.dst.toNat + needDst i) := by
  rcases exec_next_cases h with ⟨e, -, rfl⟩ | ⟨-, -, dst, -, hlen, rfl⟩
  · exact absurd rfl hne
  · exact ⟨rfl, hlen ▸ inside_of_readByte_writeWords_ne hne⟩

theorem issueCommand_changes_byte {v : Word} {s t : State} {a : Nat} (h : issueCommand v s = .next t)
    (hne : readByte t.spm a ≠ readByte s.spm a) :
    ∃ i, decode v = .legal i ∧ t.err = 0 ∧ 4 * s.dst.toNat ≤ a ∧ a < 4 * (s.dst.toNat + needDst i) := by
  rcases issueCommand_next_cases h with ⟨_, -, rfl⟩ | ⟨i, hdecode, hexec⟩
  · exact absurd rfl hne
  · exact ⟨i, hdecode, exec_changes_byte (s := s.withCmd v) hexec hne⟩

/-- A transaction that changes a byte of the scratchpad was admitted, so its offset is aligned (R72). -/
theorem aligned_of_perform_changes_spm {s t : State} {e : HostEvent} {width off : Nat} (he : e.AccessesAt width off)
    (h : perform s e = .next t) (hne : t.spm ≠ s.spm) : off % 4 = 0 := by
  have hadmitted : admittedTarget width off ≠ none := fun hnone => by
    rw [perform_refused he hnone] at h
    cases h
    exact hne rfl
  exact ((admittedTarget_ne_none_iff width off).1 hadmitted).2.1

/-- An event that changes a byte of the scratchpad: what is left of the cases of what an event can do. -/
theorem perform_changes_byte {s t : State} {e : HostEvent} {a : Nat} (h : perform s e = .next t)
    (hne : readByte t.spm a ≠ readByte s.spm a) :
    (∃ v, e = .transaction (.write 32 (0x1000 + 4 * (a / 4)) v)) ∨
      (∃ v i, e = cmdWrite v ∧ decode v = .legal i ∧ t.err = 0 ∧
        4 * s.dst.toNat ≤ a ∧ a < 4 * (s.dst.toNat + needDst i)) ∨
      e = .reset ∨ ∃ v, e = .resetDuringCommand v := by
  rcases perform_next_cases h with ⟨-, hreset⟩ | ⟨_, _, -, -, rfl⟩ | ⟨_, _, _, _, -, -, rfl, -⟩ | ⟨v, u, he, hu, rfl⟩ |
    ⟨r, v, -, -, rfl⟩ | ⟨off, v, w, he, hlo, hw, ht⟩
  · -- reset
    exact .inr (.inr hreset)
  · -- a refused transaction
    exact absurd rfl hne
  · -- a read
    exact absurd rfl hne
  · -- a CMD write
    obtain ⟨i, hi⟩ := issueCommand_changes_byte hu hne
    exact .inr (.inl ⟨v, i, he, hi⟩)
  · -- a write to another CSR
    exact absurd (by simp) hne
  · -- a write of one SPM word
    have h4 : off % 4 = 0 := aligned_of_perform_changes_spm (.inr ⟨v, he⟩) h fun hspm => hne (by rw [hspm])
    have hin : 4 * w.val ≤ a ∧ a < 4 * (w.val + 1) := by
      rw [ht] at hne
      exact inside_of_readByte_writeWords_ne (vs := [v]) hne
    have hoff : off = 0x1000 + 4 * (a / 4) := by
      simp only [spmWindow] at hlo hw
      omega
    exact .inl ⟨v, hoff ▸ he⟩

/-- Settles O18: an idle step changes nothing, and an event that changes a byte is one of its writers. -/
theorem scratchpadByteChangesOnlyByItsWriters : Obligations.ScratchpadByteChangesOnlyByItsWriters := by
  intro s t a h hne
  rcases step_next_cases h with ⟨-, rfl⟩ | ⟨e, rest, hpending, hperform⟩
  · exact absurd rfl hne
  · exact ⟨e, rest, hpending, perform_changes_byte (s := s.withPending rest) hperform hne⟩

end Sys2Proof.Machine
end

section
/-! PROOFS. CMD words (30_encoding.md): the decoder and the encoder in arithmetic, and what a CMD write of an illegal
word does. -/

namespace Sys2Proof

/-! ## The fields of a CMD word (R111) -/

@[simp] theorem toNat_cmdOp (v : Word) : (cmdOp v).toNat = v.toNat % 16 := by
  simp [cmdOp]

@[simp] theorem toNat_cmdRsv0 (v : Word) : (cmdRsv0 v).toNat = v.toNat / 16 % 16 := by
  simp [cmdRsv0, Nat.shiftRight_eq_div_pow]

@[simp] theorem toNat_cmdBits (v : Word) : (cmdBits v).toNat = v.toNat / 256 % 256 := by
  simp [cmdBits, Nat.shiftRight_eq_div_pow]

@[simp] theorem toNat_cmdRsv1 (v : Word) : (cmdRsv1 v).toNat = v.toNat / 65536 := by
  have hfits : v.toNat / 65536 < 65536 := by omega
  simpa [cmdRsv1, Nat.shiftRight_eq_div_pow] using Nat.mod_eq_of_lt hfits

theorem cmdRsv0_eq_zero_iff (v : Word) : cmdRsv0 v = 0 ↔ v.toNat / 16 % 16 = 0 := by
  rw [← BitVec.toNat_inj, toNat_cmdRsv0]
  rfl

theorem cmdRsv1_eq_zero_iff (v : Word) : cmdRsv1 v = 0 ↔ v.toNat / 65536 = 0 := by
  rw [← BitVec.toNat_inj, toNat_cmdRsv1]
  rfl

/-! ## The encoder -/

theorem Instr.wellFormed_iff (i : Instr) : i.wellFormed = true ↔ i.width < 256 := by
  cases i <;> exact decide_eq_true_iff

/-- The OP values in use are 1, 2 and 3 (R112). -/
theorem Instr.op_bounds (i : Instr) : 1 ≤ i.op ∧ i.op ≤ 3 := by
  cases i <;> simp [Instr.op]

/-- A command is its operation and its width (R112, R113). -/
theorem Instr.eq_iff_op_width (i j : Instr) : i = j ↔ i.op = j.op ∧ i.width = j.width := by
  cases i <;> cases j <;> simp [Instr.op, Instr.width]

/-- The fields of CMD32 end to end: BITS from bit 8 on, OP below, the reserved fields 0 (R111). -/
theorem toNat_cmd32 {b op : Nat} (hb : b < 256) (hop : op < 16) : (cmd32 b op).toNat = b <<< 8 ||| op := by
  rw [cmd32, BitVec.toNat_append, BitVec.toNat_append, BitVec.toNat_append]
  simp [Nat.mod_eq_of_lt hb, Nat.mod_eq_of_lt hop, ← Nat.shiftLeft_add]

theorem toNat_encode_eq_or {i : Instr} (h : i.width < 256) : (encode i).toNat = i.width <<< 8 ||| i.op :=
  toNat_cmd32 h (by have := i.op_bounds; omega)

theorem toNat_encode {i : Instr} (h : i.width < 256) : (encode i).toNat = i.width * 256 + i.op := by
  have hop : i.op < 2 ^ 8 := by have := i.op_bounds; omega
  rw [toNat_encode_eq_or h, ← Nat.shiftLeft_add_eq_or_of_lt hop, Nat.shiftLeft_eq]

/-! ## The decoder (R117) -/

/-- The decoder answers command `i` on exactly the words whose reserved fields are 0 and whose OP and BITS are those of
`i`. -/
theorem decode_eq_legal_iff (v : Word) (i : Instr) :
    decode v = .legal i ↔
      v.toNat / 65536 = 0 ∧ v.toNat / 16 % 16 = 0 ∧ v.toNat % 16 = i.op ∧ v.toNat / 256 % 256 = i.width := by
  simp only [decode, ne_eq, cmdRsv1_eq_zero_iff, cmdRsv0_eq_zero_iff, toNat_cmdOp, toNat_cmdBits]
  split
  case isTrue hrsv1 => simp [hrsv1]
  case isFalse hrsv1 =>
    split
    case isTrue hrsv0 => simp [hrsv0]
    case isFalse hrsv0 =>
      rw [not_not] at hrsv1 hrsv0
      split
      case h_1 hv | h_2 hv | h_3 hv => simp [hrsv1, hrsv0, hv, Instr.eq_iff_op_width, Instr.op, Instr.width]
      case h_4 h1 h2 h3 =>
        refine iff_of_false nofun ?_
        rintro ⟨-, -, hv, -⟩
        cases i
        exacts [h1 hv, h2 hv, h3 hv]

/-- The decoder and the encoder are inverse: a word has a command's meaning exactly when it is the encoding of that
command (R116, R119). -/
theorem decode_eq_legal_iff_encode (v : Word) (i : Instr) :
    decode v = .legal i ↔ i.wellFormed = true ∧ encode i = v := by
  rw [decode_eq_legal_iff, Instr.wellFormed_iff]
  have hop := i.op_bounds
  constructor
  · rintro ⟨hrsv1, hrsv0, hv, hwidth⟩
    have hfits : i.width < 256 := by omega
    refine ⟨hfits, BitVec.eq_of_toNat_eq ?_⟩
    rw [toNat_encode hfits]
    omega
  · rintro ⟨hfits, rfl⟩
    rw [toNat_encode hfits]
    omega

end Sys2Proof

namespace Sys2Proof.Machine

/-- Settles O1: the decoder is the encoder's inverse. -/
theorem encodedCommandDecodesToItself : Obligations.EncodedCommandDecodesToItself :=
  fun i hwf => (decode_eq_legal_iff_encode _ i).2 ⟨hwf, rfl⟩

/-- Settles O2: the decoder is the encoder's inverse. -/
theorem legalWordIsItsCommandsEncoding : Obligations.LegalWordIsItsCommandsEncoding :=
  fun v i => (decode_eq_legal_iff_encode v i).1

/-- An illegal word of R115 has no command's fields, so the decoder answers none. -/
theorem decode_reserved {v : Word} (h : ReservedCmdWord v) : ∃ why, decode v = .illegal why := by
  cases hdecode : decode v with
  | illegal why => exact ⟨why, rfl⟩
  | legal i =>
    have hop := i.op_bounds
    obtain ⟨hrsv1, hrsv0, hv, -⟩ := (decode_eq_legal_iff v i).1 hdecode
    unfold ReservedCmdWord at h
    omega

/-- Settles O3: the fields of the word give the command, and an illegal word has none. -/
theorem everyCmdWordIsACommandOrIllegal : Obligations.EveryCmdWordIsACommandOrIllegal := by
  refine fun v => ⟨fun hrsv1 hrsv0 => ?_, decode_reserved⟩
  have hlegal (i : Instr) (hop : v.toNat % 16 = i.op) (hwidth : v.toNat / 256 % 256 = i.width) : decode v = .legal i :=
    (decode_eq_legal_iff v i).2 ⟨hrsv1, hrsv0, hop, hwidth⟩
  exact ⟨fun hop => hlegal (.pack _) hop rfl, fun hop => hlegal (.unpack _) hop rfl,
    fun hop => hlegal (.unpackDelta _) hop rfl⟩

/-- Settles O4: the fields end to end, for each operation. -/
theorem cmdWordIsWidthAndOperation : Obligations.CmdWordIsWidthAndOperation := fun b hb =>
  ⟨toNat_encode_eq_or (i := .pack b) hb, toNat_encode_eq_or (i := .unpack b) hb,
    toNat_encode_eq_or (i := .unpackDelta b) hb⟩

/-- The CMD write of an illegal word sets CMD and the code of ILLEGAL_COMMAND (R142). -/
theorem issueCommand_illegal {v : Word} {why : IllegalEncoding} (h : decode v = .illegal why) (s : State) :
    issueCommand v s = .next ((s.withCmd v).withErr (errCode .illegalCommand)) := by
  rw [issueCommand, h]
  rfl

/-- Settles O7: an illegal word of R115 decodes to no command, and its CMD write only reports that. -/
theorem illegalCmdWordIsRefused : Obligations.IllegalCmdWordIsRefused := by
  intro s rest v hreserved
  obtain ⟨why, hdecode⟩ := decode_reserved hreserved
  refine ⟨⟨why, hdecode⟩, ?_⟩
  rw [step_cmdWrite, issueCommand_illegal hdecode]
  rfl

/-- A word that is a command's encoding decodes to it. -/
theorem encode_and_decode {i : Instr} {v : Word} (hwf : i.wellFormed = true) (h : encode i = v) :
    encode i = v ∧ decode v = .legal i :=
  ⟨h, (decode_eq_legal_iff_encode v i).2 ⟨hwf, h⟩⟩

/-- Settles O5: the seven encodings are computed and decode to their commands; `PACK 0` fails the width check. -/
theorem exampleCmdWordsDecode : Obligations.ExampleCmdWordsDecode := by
  obtain ⟨hencode, hdecode⟩ := encode_and_decode (i := .pack 0) (v := 0x00000001) rfl rfl
  exact ⟨encode_and_decode rfl rfl, encode_and_decode rfl rfl, encode_and_decode rfl rfl, encode_and_decode rfl rfl,
    encode_and_decode rfl rfl, encode_and_decode rfl rfl,
    ⟨hencode, hdecode, fun s => exec_of_validate (i := .pack 0) (e := .unsupportedWidth) rfl⟩, rfl⟩

end Sys2Proof.Machine
end

section
/-! PROOFS. Commands (40_command.md), first part: which entry check a command reports, the three ways it ends, and what
that leaves unchanged and depends on. -/

namespace Sys2Proof.Machine

/-! ## The compute phase, and what the entry checks and the read phase depend on -/

/-- The compute phase of each command, on BASE and the source words (R149, R171, R191, R211). -/
def commandResult : Instr → Word → List Word → List Word
  | .pack b, _, src => packBlock b src
  | .unpack b, _, src => unpackBlock b src
  | .unpackDelta b, base, src => deltaBlock b base src

@[simp] theorem length_commandResult (i : Instr) (base : Word) (src : List Word) :
    (commandResult i base src).length = needDst i := by
  cases i <;> simp [commandResult, needDst, Config.packedWords, Config.lanes, Config.block]

theorem exec_eq_runCommand_commandResult (i : Instr) (s : State) :
    exec i s = runCommand i.width (needSrc i) (needDst i) (commandResult i s.base) s := by
  cases i <;> rfl

/-- The entry checks in arithmetic (R143 to R147). -/
theorem validate_eq (b need_src need_dst : Nat) (s : State) :
    validate b need_src need_dst s =
      if b < 1 ∨ 32 < b then some .unsupportedWidth
      else if s.srcLen.toNat ≠ need_src ∨ s.dstLen.toNat ≠ need_dst then some .invalidBufferSize
      else if Config.spmWords < s.src.toNat + s.srcLen.toNat ∨ Config.spmWords < s.dst.toNat + s.dstLen.toNat then
        some .bufferOutOfRange
      else if s.src.toNat < s.dst.toNat + s.dstLen.toNat ∧ s.dst.toNat < s.src.toNat + s.srcLen.toNat then
        some .bufferOverlap
      else none := by
  simp [validate, badWidth, badSizes, outOfRange, overlapping]

/-- The entry checks read the four buffer descriptors only (R143 to R146). -/
theorem validate_congr {s s' : State} (hsrc : s'.src = s.src) (hsrcLen : s'.srcLen = s.srcLen) (hdst : s'.dst = s.dst)
    (hdstLen : s'.dstLen = s.dstLen) (b need_src need_dst : Nat) :
    validate b need_src need_dst s' = validate b need_src need_dst s := by
  simp only [validate_eq, hsrc, hsrcLen, hdst, hdstLen]

/-- The read phase reads the words of its buffer only. -/
theorem readWords_congr {m m' : Memory} {w n : Nat}
    (h : ∀ j, j < n → readWord m' (w + j) = readWord m (w + j)) : readWords m' w n = readWords m w n := by
  induction n generalizing w with
  | zero => rfl
  | succ n ih =>
    have hfirst : readWord m' w = readWord m w := h 0 n.succ_pos
    have hrest : readWords m' (w + 1) n = readWords m (w + 1) n := ih fun j hj => by
      rw [Nat.add_assoc, Nat.add_comm 1 j]
      exact h (j + 1) (Nat.succ_lt_succ hj)
    rw [readWords, readWords, hfirst, hrest]

/-! ## How a command ends -/

theorem exec_of_read_ok {i : Instr} {s : State} {src : List Word} (ha : Accepted i s)
    (hr : readWords s.spm s.src.toNat s.srcLen.toNat = .ok src) :
    exec i s = .next (complete (commandResult i s.base src) s) := by
  rw [exec_eq_runCommand_commandResult, runCommand, (validate_eq_none_iff i s).2 ha, hr]

theorem exec_of_read_error {i : Instr} {s : State} {f : Fault} (ha : Accepted i s)
    (hr : readWords s.spm s.src.toNat s.srcLen.toNat = .error f) : exec i s = .fault f := by
  rw [exec_eq_runCommand_commandResult, runCommand, (validate_eq_none_iff i s).2 ha, hr]

/-- The three ways a command ends: a check failed, or a source word was undefined, or it completed (R147, R149). -/
theorem exec_cases (i : Instr) (s : State) :
    (∃ e, validate i.width (needSrc i) (needDst i) s = some e ∧ exec i s = .next (s.withErr (errCode e))) ∨
    (Accepted i s ∧ ∃ f, readWords s.spm s.src.toNat s.srcLen.toNat = .error f ∧ exec i s = .fault f) ∨
    (Accepted i s ∧ ∃ src, readWords s.spm s.src.toNat s.srcLen.toNat = .ok src ∧
      exec i s = .next (complete (commandResult i s.base src) s)) := by
  cases hv : validate i.width (needSrc i) (needDst i) s with
  | some e => exact .inl ⟨e, rfl, exec_of_validate hv⟩
  | none =>
    have ha : Accepted i s := (validate_eq_none_iff i s).1 hv
    cases hr : readWords s.spm s.src.toNat s.srcLen.toNat with
    | error f => exact .inr (.inl ⟨ha, f, rfl, exec_of_read_error ha hr⟩)
    | ok src => exact .inr (.inr ⟨ha, src, rfl, exec_of_read_ok ha hr⟩)

/-- Every error has a code of its own, none of them OK (R230). -/
theorem errCode_ne_zero (e : CmdError) : errCode e ≠ 0 := by
  cases e <;> decide

/-- The code in STATUS.ERR for the outcome of the entry checks (R147, R149). -/
def resultCode : Option CmdError → BitVec 4
  | some e => errCode e
  | none => errOk

theorem exec_next_err {i : Instr} {s t : State} (h : exec i s = .next t) :
    t.err = resultCode (validate i.width (needSrc i) (needDst i) s) := by
  rcases exec_next_cases h with ⟨e, hv, rfl⟩ | ⟨ha, -, dst, -, -, rfl⟩
  · rw [hv]
    rfl
  · rw [(validate_eq_none_iff i s).2 ha]
    rfl

/-! ## The entry checks one by one -/

/-- Settles O21: the width is checked first. -/
theorem unsupportedWidthIsReported : Obligations.UnsupportedWidthIsReported := fun _ s hwidth =>
  exec_of_validate (s := s) (e := .unsupportedWidth) (by rw [validate_eq, if_pos hwidth])

theorem exec_wrong_size {i : Instr} {s : State} (hmin : 1 ≤ i.width) (hmax : i.width ≤ 32)
    (h : s.srcLen.toNat ≠ needSrc i ∨ s.dstLen.toNat ≠ needDst i) : exec i s = .next { s with err := 2 } :=
  exec_of_validate (e := .invalidBufferSize) (by rw [validate_eq, if_neg (by omega), if_pos h])

/-- Settles O22: after the width the sizes are checked, against those of R114. -/
theorem wrongBufferSizeIsReported : Obligations.WrongBufferSizeIsReported := fun b _ hmin hmax =>
  ⟨exec_wrong_size (i := .pack b) hmin hmax,
    fun h => ⟨exec_wrong_size (i := .unpack b) hmin hmax h, exec_wrong_size (i := .unpackDelta b) hmin hmax h⟩⟩

/-- Settles O23: the range is checked on sums of naturals, and 0xFFFFFFFF + 128 is past every SPM. -/
theorem bufferPastTheScratchpadIsReported : Obligations.BufferPastTheScratchpadIsReported := by
  intro i s hmin hmax hsrc hdst
  have hrange : Config.spmWords < s.src.toNat + s.srcLen.toNat ∨ Config.spmWords < s.dst.toNat + s.dstLen.toNat →
      exec i s = .next { s with err := 3 } := fun h =>
    exec_of_validate (e := .bufferOutOfRange) (by rw [validate_eq, if_neg (by omega), if_neg (by omega), if_pos h])
  refine ⟨hrange, fun hs hl => hrange (.inl ?_)⟩
  calc Config.spmWords < 2 ^ 32 := Config.spmWords_lt
    _ ≤ s.src.toNat + s.srcLen.toNat := by rw [hs, hl]; decide

theorem needSrc_pos {i : Instr} (h : 1 ≤ i.width) : 0 < needSrc i := by
  cases i with
  | pack b => exact Nat.succ_pos 127
  | unpack b | unpackDelta b => exact Nat.mul_pos (Nat.succ_pos 3) h

theorem needDst_pos {i : Instr} (h : 1 ≤ i.width) : 0 < needDst i := by
  cases i with
  | pack b => exact Nat.mul_pos (Nat.succ_pos 3) h
  | unpack b | unpackDelta b => exact Nat.succ_pos 127

/-- Two half-open ranges, neither of them empty, share a number exactly when each begins before the other ends. -/
theorem ranges_share_iff {s sl d dl : Nat} (hsl : 0 < sl) (hdl : 0 < dl) :
    (∃ w, (s ≤ w ∧ w < s + sl) ∧ d ≤ w ∧ w < d + dl) ↔ s < d + dl ∧ d < s + sl := by
  constructor
  · rintro ⟨w, ⟨hs, hsl⟩, hd, hdl⟩
    omega
  · rintro ⟨hs, hd⟩
    exact ⟨max s d, by omega⟩

/-- Settles O24: the check of R146 says that the two ranges share a word. -/
theorem sharedWordIsReported : Obligations.SharedWordIsReported := by
  intro i s hmin hmax hsrc hdst hsrcFits hdstFits
  rw [ranges_share_iff (hsrc ▸ needSrc_pos hmin) (hdst ▸ needDst_pos hmin)]
  have hvalidate := validate_eq i.width (needSrc i) (needDst i) s
  rw [if_neg (by omega), if_neg (by omega), if_neg (by omega)] at hvalidate
  constructor
  · intro hshared
    exact exec_of_validate (e := .bufferOverlap) (by rw [hvalidate, if_pos hshared])
  · intro happart t ht
    rw [exec_next_err ht, hvalidate, if_neg happart]
    rfl

/-- The required sizes by operation and width (R114). -/
theorem needSrc_needDst_eq (i : Instr) :
    needSrc i = (if i.op = 1 then 128 else 4 * i.width) ∧ needDst i = (if i.op = 1 then 4 * i.width else 128) := by
  cases i <;> exact ⟨rfl, rfl⟩

/-- A word that R115 does not call illegal decodes to a command. -/
theorem decode_legal_of_not_reserved {v : Word} (h : ¬ ReservedCmdWord v) : ∃ i, decode v = .legal i := by
  obtain ⟨hlegal, -⟩ := everyCmdWordIsACommandOrIllegal v
  simp only [ReservedCmdWord, not_or, not_not, not_le] at h
  obtain ⟨⟨hzero, hop⟩, hrsv0, hrsv1⟩ := h
  obtain ⟨hpack, hunpack, hdelta⟩ := hlegal hrsv1 hrsv0
  obtain h1 | h2 | h3 : v.toNat % 16 = 1 ∨ v.toNat % 16 = 2 ∨ v.toNat % 16 = 3 := by omega
  exacts [⟨_, hpack h1⟩, ⟨_, hunpack h2⟩, ⟨_, hdelta h3⟩]

theorem issueCommand_legal {v : Word} {i : Instr} (h : decode v = .legal i) (s : State) :
    issueCommand v s = exec i (s.withCmd v) := by
  rw [issueCommand, h]
  rfl

theorem step_cmdWrite_legal {v : Word} {i : Instr} (h : decode v = .legal i) (s : State) (rest : List HostEvent) :
    step (s.withPending (cmdWrite v :: rest)) = respondWith .ok (exec i ((s.withPending rest).withCmd v)) := by
  rw [step_cmdWrite, issueCommand_legal h]

/-- Settles O6: the step issues the word, and answers `ok` to a next state only. -/
theorem stepRunsTheDecodedCommand : Obligations.StepRunsTheDecodedCommand := by
  intro s rest v i hdecode
  rw [step_cmdWrite_legal hdecode]
  rfl

/-- The code of the entry checks as a number: that of the first check to fail, or 0 (R147). -/
theorem toNat_resultCode_validate (b need_src need_dst : Nat) (s : State) :
    (resultCode (validate b need_src need_dst s)).toNat =
      if b < 1 ∨ 32 < b then 1
      else if s.srcLen.toNat ≠ need_src ∨ s.dstLen.toNat ≠ need_dst then 2
      else if Config.spmWords < s.src.toNat + s.srcLen.toNat ∨ Config.spmWords < s.dst.toNat + s.dstLen.toNat then 3
      else if s.src.toNat < s.dst.toNat + s.dstLen.toNat ∧ s.dst.toNat < s.src.toNat + s.srcLen.toNat then 4
      else 0 := by
  simp only [validate_eq, apply_ite resultCode, apply_ite BitVec.toNat]
  rfl

/-- Settles O25: an illegal word reports 5 (O7); any other decodes to a command with the word's OP and BITS, whose
code is that of its entry checks. -/
theorem firstFailingCheckIsReported : Obligations.FirstFailingCheckIsReported := by
  intro s t rest v hstep
  constructor
  · intro hreserved
    rw [(illegalCmdWordIsRefused s rest v hreserved).2] at hstep
    cases hstep
    rfl
  · intro hlegal
    obtain ⟨i, hdecode⟩ := decode_legal_of_not_reserved hlegal
    obtain ⟨-, -, hop, hwidth⟩ := (decode_eq_legal_iff v i).1 hdecode
    obtain ⟨hsrc, hdst⟩ := needSrc_needDst_eq i
    rw [step_cmdWrite_legal hdecode, respondWith_eq_next_iff] at hstep
    obtain ⟨u, hexec, rfl⟩ := hstep
    rw [hop, hwidth, ← hsrc, ← hdst, State.respond_err, exec_next_err hexec]
    exact toNat_resultCode_validate i.width (needSrc i) (needDst i) ((s.withPending rest).withCmd v)

/-! ## Errors and faults -/

/-- Settles O26: a nonzero code is that of a failed check, and the checks do not read the scratchpad. -/
theorem commandErrorTouchesOnlyStatus : Obligations.CommandErrorTouchesOnlyStatus := by
  intro i s t h herr
  rcases exec_next_cases h with ⟨e, hv, rfl⟩ | ⟨-, -, dst, -, -, rfl⟩
  · exact ⟨rfl, fun m => exec_of_validate (s := s.withSpm m) ((validate_congr rfl rfl rfl rfl _ _ _).trans hv)⟩
  · exact absurd rfl herr

/-- Settles O27: the read phase stops at the first undefined word. -/
theorem undefinedSourceWordFaults : Obligations.UndefinedSourceWordFaults := by
  intro i s k ha hk hnone hbefore
  exact exec_of_read_error ha ((readWords_eq_error_iff _ _ _ _).2 ⟨k, ha.src_len ▸ hk, rfl, hnone, hbefore⟩)

/-- Settles O28: of the three ways a command ends, only an undefined source word gives no next state. -/
theorem everyCommandEnds : Obligations.EveryCommandEnds := by
  intro i s
  rcases exec_cases i s with ⟨e, -, hexec⟩ | ⟨ha, f, hr, hexec⟩ | ⟨-, src, -, hexec⟩
  · exact .inl ⟨_, hexec⟩
  · obtain ⟨k, hk, rfl, hnone, -⟩ := (readWords_eq_error_iff _ _ _ _).1 hr
    exact .inr ⟨ha, k, ha.src_len ▸ hk, hnone, hexec⟩
  · exact .inl ⟨_, hexec⟩

/-! ## What a command depends on -/

/-- The two states agree on a command's operands: the argument CSRs and the source words (R114, R152). -/
structure SameOperands (s s' : State) : Prop where
  src : s'.src = s.src
  srcLen : s'.srcLen = s.srcLen
  dst : s'.dst = s.dst
  dstLen : s'.dstLen = s.dstLen
  base : s'.base = s.base
  source : ∀ j, j < s.srcLen.toNat → readWord s'.spm (s.src.toNat + j) = readWord s.spm (s.src.toNat + j)

theorem SameOperands.withSpm {s : State} {m : Memory}
    (h : ∀ j, j < s.srcLen.toNat → readWord m (s.src.toNat + j) = readWord s.spm (s.src.toNat + j)) :
    SameOperands s (s.withSpm m) :=
  ⟨rfl, rfl, rfl, rfl, rfl, h⟩

theorem validate_of_sameOperands {s s' : State} (h : SameOperands s s') (b need_src need_dst : Nat) :
    validate b need_src need_dst s' = validate b need_src need_dst s :=
  validate_congr h.src h.srcLen h.dst h.dstLen b need_src need_dst

theorem accepted_of_sameOperands {s s' : State} (h : SameOperands s s') {i : Instr} (ha : Accepted i s) :
    Accepted i s' := by
  rw [← validate_eq_none_iff, validate_of_sameOperands h, validate_eq_none_iff]
  exact ha

theorem readWords_of_sameOperands {s s' : State} (h : SameOperands s s') :
    readWords s'.spm s'.src.toNat s'.srcLen.toNat = readWords s.spm s.src.toNat s.srcLen.toNat := by
  rw [h.src, h.srcLen]
  exact readWords_congr h.source

/-- From a state with the operands of one that completes, a command computes the same words (R152). -/
theorem exec_of_sameOperands {s s' : State} (h : SameOperands s s') {i : Instr} {src : List Word} (ha : Accepted i s)
    (hr : readWords s.spm s.src.toNat s.srcLen.toNat = .ok src) :
    exec i s' = .next (complete (commandResult i s.base src) s') := by
  rw [← h.base]
  exact exec_of_read_ok (accepted_of_sameOperands h ha) ((readWords_of_sameOperands h).trans hr)

/-- The destination words of a command that completed (R149). -/
theorem readWord_complete (dst : List Word) (s : State) {j : Nat} (h : j < dst.length) :
    readWord (complete dst s).spm (s.dst.toNat + j) = some dst[j] :=
  readWord_writeWords s.spm s.dst.toNat dst h

theorem length_commandResult_of_accepted {i : Instr} {s : State} (ha : Accepted i s) (base : Word) (src : List Word) :
    (commandResult i base src).length = s.dstLen.toNat :=
  (length_commandResult i base src).trans ha.dst_len.symm

/-- Settles O40: a command that completes writes the words it computed from the source, whatever else the scratchpad
holds. -/
theorem commandIsAllOrNothing : Obligations.CommandIsAllOrNothing := by
  intro i s t h
  rcases exec_cases i s with ⟨e, -, hexec⟩ | ⟨-, f, -, hexec⟩ | ⟨ha, src, hr, hexec⟩ <;> cases hexec.symm.trans h
  · exact .inr ⟨errCode_ne_zero e, rfl⟩
  · refine .inl ⟨rfl, fun m hm => ⟨_, exec_of_sameOperands (.withSpm hm) ha hr, fun j hj => ?_⟩⟩
    have hlen := (length_commandResult_of_accepted ha s.base src).symm ▸ hj
    exact ⟨_, readWord_complete _ s hlen, readWord_complete _ (s.withSpm m) hlen⟩

/-- Settles O41: the checks, the read phase and the compute phase read the operands only. -/
theorem resultDependsOnOperandsOnly : Obligations.ResultDependsOnOperandsOnly := by
  intro i s s' hsrc hsrcLen hdst hdstLen hbase hsource
  have hsame : SameOperands s s' := ⟨hsrc, hsrcLen, hdst, hdstLen, hbase, hsource⟩
  rcases exec_cases i s with ⟨e, hv, hexec⟩ | ⟨ha, f, hr, hexec⟩ | ⟨ha, src, hr, hexec⟩ <;> rw [hexec]
  · -- a check failed
    refine ⟨nofun, ?_⟩
    rintro _ ⟨⟩
    exact ⟨_, exec_of_validate ((validate_of_sameOperands hsame _ _ _).trans hv), rfl,
      fun hzero => absurd hzero (errCode_ne_zero e)⟩
  · -- a source word is undefined
    refine ⟨?_, nofun⟩
    rintro _ ⟨⟩
    exact exec_of_read_error (accepted_of_sameOperands hsame ha) ((readWords_of_sameOperands hsame).trans hr)
  · -- the command completes
    refine ⟨nofun, ?_⟩
    rintro _ ⟨⟩
    refine ⟨_, exec_of_sameOperands hsame ha hr, rfl, fun _ j hj => ?_⟩
    have hlen := (length_commandResult_of_accepted ha s.base src).symm ▸ hj
    rw [readWord_complete _ s hlen, ← hdst]
    exact readWord_complete _ s' hlen

/-! ## What a command leaves alone, and the command run again -/

/-- Nothing of a list at or above an address lies below it. -/
theorem filter_below_eq_nil {l : Memory} {a : Nat} (h : ∀ c ∈ l, a ≤ c.1) : l.filter (fun c => decide (c.1 < a)) = [] :=
  List.filter_eq_nil_iff.2 fun c hc => by simpa using h c hc

/-- Nothing of a list below an address lies at or above it. -/
theorem filter_above_eq_nil {l : Memory} {a : Nat} (h : ∀ c ∈ l, c.1 < a) : l.filter (fun c => decide (a ≤ c.1)) = [] :=
  List.filter_eq_nil_iff.2 fun c hc => by simpa using h c hc

/-- Writing the same bytes again changes nothing, whatever the list. -/
theorem writeBytes_writeBytes_same (m : Memory) (a : Nat) (bs : List Byte) :
    writeBytes (writeBytes m a bs) a bs = writeBytes m a bs := by
  have hcells : ∀ c ∈ cellsAt a bs, a ≤ c.1 ∧ c.1 < a + bs.length := fun c hc => mem_cellsAt hc
  have habove : ∀ c ∈ m.filter (fun c => decide (a + bs.length ≤ c.1)), a ≤ c.1 := fun c hc => by
    have := of_decide_eq_true (List.mem_filter.1 hc).2
    omega
  have hbelow : ∀ c ∈ m.filter (fun c => decide (c.1 < a)), c.1 < a + bs.length := fun c hc => by
    have := of_decide_eq_true (List.mem_filter.1 hc).2
    omega
  have hlo : (writeBytes m a bs).filter (fun c => decide (c.1 < a)) = m.filter (fun c => decide (c.1 < a)) := by
    rw [writeBytes, List.filter_append, List.filter_append, filter_below_eq_nil fun c hc => (hcells c hc).1,
      filter_below_eq_nil habove, List.filter_filter]
    simp
  have hhi : (writeBytes m a bs).filter (fun c => decide (a + bs.length ≤ c.1)) =
      m.filter (fun c => decide (a + bs.length ≤ c.1)) := by
    rw [writeBytes, List.filter_append, List.filter_append, filter_above_eq_nil hbelow,
      filter_above_eq_nil fun c hc => (hcells c hc).2, List.filter_filter]
    simp
  rw [writeBytes, hlo, hhi, writeBytes]

theorem complete_complete_same (dst : List Word) (s : State) : complete dst (complete dst s) = complete dst s := by
  simp only [complete_eq]
  congr 1
  exact writeBytes_writeBytes_same _ _ _

/-- An accepted command leaves its source words alone: the buffers share no word (R146, R151). -/
theorem sameOperands_complete {i : Instr} {s : State} (ha : Accepted i s) {dst : List Word}
    (hlen : dst.length = needDst i) :
    SameOperands s (complete dst s) where
  src := rfl
  srcLen := rfl
  dst := rfl
  dstLen := rfl
  base := rfl
  source j hj := readWord_writeWords_outside _ _ _ (by
    have hapart := ha.apart
    rw [ha.src_len] at hj
    omega)

/-- Settles O39: a failed check fails again; a command that completes leaves its operands, so it computes the same words
and writes them again. -/
theorem commandFrameAndRepetition : Obligations.CommandFrameAndRepetition := by
  intro i s t h
  rcases exec_cases i s with ⟨e, hv, hexec⟩ | ⟨-, f, -, hexec⟩ | ⟨ha, src, hr, hexec⟩ <;> cases hexec.symm.trans h
  · exact ⟨rfl, fun _ _ => rfl, fun _ _ _ => rfl, exec_of_validate ((validate_congr rfl rfl rfl rfl _ _ _).trans hv)⟩
  · have hlen := length_commandResult i s.base src
    have hsame := sameOperands_complete ha hlen
    refine ⟨rfl, fun a ha' => ?_, fun _ => hsame.source, ?_⟩
    · exact readByte_writeWords_outside _ _ _ (by rwa [hlen, ← ha.dst_len])
    · rw [exec_of_sameOperands hsame ha hr, complete_complete_same]

/-! ## What changes a CSR -/

/-- A write to one CSR leaves what the others read as. -/
theorem readCsr_writeCsr_of_ne {r r' : Csr} (h : r' ≠ r) (s : State) (v : Word) :
    readCsr (writeCsr s v r) r' = readCsr s r' := by
  cases r <;> cases r' <;> trivial

/-- A write to a CSR that changes what it reads as stored its value (R74). -/
theorem readCsr_writeCsr_self {r : Csr} {s : State} {v : Word} (h : readCsr (writeCsr s v r) r ≠ readCsr s r) :
    readCsr (writeCsr s v r) r = v := by
  cases r with
  | status | spmSize => exact absurd rfl h
  | _ => rfl

@[simp] theorem readCsr_respond (s : State) (x : Response) (r : Csr) : readCsr (s.respond x) r = readCsr s r := by
  cases r <;> rfl

@[simp] theorem readCsr_withSpm (s : State) (m : Memory) (r : Csr) : readCsr (s.withSpm m) r = readCsr s r := by
  cases r <;> rfl

@[simp] theorem readCsr_withPending (s : State) (es : List HostEvent) (r : Csr) :
    readCsr (s.withPending es) r = readCsr s r := by
  cases r <;> rfl

theorem readCsr_withErr {r : Csr} (hr : r ≠ .status) (s : State) (e : BitVec 4) :
    readCsr (s.withErr e) r = readCsr s r := by
  cases r with
  | status => exact absurd rfl hr
  | _ => rfl

/-- A command changes no CSR but STATUS (R148, R151). -/
theorem exec_keeps_csr {i : Instr} {s t : State} (h : exec i s = .next t) {r : Csr} (hr : r ≠ .status) :
    readCsr t r = readCsr s r := by
  rcases exec_next_cases h with ⟨e, -, rfl⟩ | ⟨-, -, dst, -, -, rfl⟩
  · exact readCsr_withErr hr s _
  · rw [complete, readCsr_withErr hr, readCsr_withSpm]

/-- A CMD write changes no CSR but CMD, which then reads as written, and STATUS (R35, R140). -/
theorem issueCommand_csr {v : Word} {s t : State} (h : issueCommand v s = .next t) {r : Csr} (hr : r ≠ .status) :
    readCsr t r = readCsr (writeCsr s v .cmd) r := by
  rcases issueCommand_next_cases h with ⟨_, -, rfl⟩ | ⟨i, -, hexec⟩
  · exact readCsr_withErr hr (s.withCmd v) _
  · exact exec_keeps_csr hexec hr

/-- A CSR that a write changes is the one written, and then reads as written. -/
theorem eq_of_readCsr_writeCsr_ne {r r' : Csr} {s : State} {v : Word}
    (h : readCsr (writeCsr s v r') r ≠ readCsr s r) : r = r' ∧ readCsr (writeCsr s v r') r = v := by
  by_cases hr : r = r'
  · subst hr
    exact ⟨rfl, readCsr_writeCsr_self h⟩
  · exact absurd (readCsr_writeCsr_of_ne hr s v) h

/-- An event that changes a CSR other than STATUS is a reset or the write of the value it then holds: what is left of
the cases of what an event can do (R35, R38 to R43, R74). -/
theorem perform_changes_csr {s t : State} {e : HostEvent} (h : perform s e = .next t) {r : Csr} (hr : r ≠ .status)
    (hne : readCsr t r ≠ readCsr s r) :
    (e = .reset ∨ ∃ v, e = .resetDuringCommand v) ∨ e = .transaction (.write 32 r.offset (readCsr t r)) := by
  rcases perform_next_cases h with ⟨-, hreset⟩ | ⟨_, _, -, -, rfl⟩ | ⟨_, _, _, _, -, -, rfl, -⟩ | ⟨v, u, rfl, hu, rfl⟩ |
    ⟨r', v, -, rfl, rfl⟩ | ⟨_, _, _, -, -, -, rfl⟩
  · -- reset
    exact .inl hreset
  · -- a refused transaction
    exact absurd (readCsr_respond s _ r) hne
  · -- a read
    exact absurd (readCsr_respond s _ r) hne
  · -- a CMD write
    rw [readCsr_respond, issueCommand_csr hu hr] at hne ⊢
    obtain ⟨rfl, hv⟩ := eq_of_readCsr_writeCsr_ne hne
    exact .inr (by rw [hv])
  · -- a write to another CSR
    rw [readCsr_respond] at hne ⊢
    obtain ⟨rfl, hv⟩ := eq_of_readCsr_writeCsr_ne hne
    exact .inr (by rw [hv])
  · -- a write of one SPM word
    exact absurd (by simp) hne

/-- Settles O17: SPM_SIZE is a constant; and the table lists CSRs other than STATUS, which an idle step keeps and an
event changes only by a reset or their own write. -/
theorem csrsChangeOnlyByTheirOwnWriteOrReset : Obligations.CsrsChangeOnlyByTheirOwnWriteOrReset := by
  intro s t h
  refine ⟨toNat_readCsr_spmSize t, or_iff_not_imp_left.2 fun hnoreset off old new hmem hne => ?_⟩
  obtain ⟨r, hr, rfl, rfl, rfl⟩ :
      ∃ r : Csr, r ≠ .status ∧ off = r.offset ∧ old = readCsr s r ∧ new = readCsr t r := by
    simp only [List.mem_cons, Prod.mk.injEq, List.not_mem_nil, or_false] at hmem
    rcases hmem with h | h | h | h | h | h
    exacts [⟨.cmd, nofun, h⟩, ⟨.src, nofun, h⟩, ⟨.srcLen, nofun, h⟩, ⟨.dst, nofun, h⟩, ⟨.dstLen, nofun, h⟩,
      ⟨.base, nofun, h⟩]
  rcases step_next_cases h with ⟨-, rfl⟩ | ⟨e, rest, hpending, hperform⟩
  · exact absurd rfl hne
  · rw [← readCsr_withPending s rest] at hne
    rcases perform_changes_csr hperform hr hne with (rfl | ⟨v, rfl⟩) | rfl
    · exact absurd ⟨rest, .inl hpending⟩ hnoreset
    · exact absurd ⟨rest, .inr ⟨v, hpending⟩⟩ hnoreset
    · exact ⟨rest, hpending⟩

end Sys2Proof.Machine
end

section
/-! PROOFS. Commands (40_command.md), second part: the four-lane datapath computes the closed forms (R153). Both packing
and unpacking cut words from a lane's bit stream, so the words in the datapath's registers are runs of the stream's
bits. -/

namespace Sys2Proof.Machine

/-! ## Runs of bits of a stream -/

/-- The `n` bits of `stream` from bit `a` on, as a word. -/
def streamBits (stream a n : Nat) : Word := toWord ((stream >>> a) &&& mask n)

@[simp] theorem getLsbD_streamBits (stream a n t : Nat) :
    (streamBits stream a n).getLsbD t = (decide (t < 32) && (stream.testBit (a + t) && decide (t < n))) := by
  rw [streamBits, toWord, BitVec.getLsbD_ofNat, Nat.testBit_and, Nat.testBit_shiftRight, mask,
    Nat.testBit_two_pow_sub_one]

@[simp] theorem getLsbD_maskWord (b : Nat) (x : Word) (t : Nat) :
    (maskWord b x).getLsbD t = (x.getLsbD t && decide (t < b)) := by
  rw [maskWord, BitVec.getLsbD_and, BitVec.getLsbD_ofNat, mask, Nat.testBit_two_pow_sub_one]
  by_cases ht : t < 32
  · simp [ht]
  · simp [ht, BitVec.getLsbD_of_ge x t (Nat.le_of_not_lt ht)]

theorem streamBits_zero (stream a : Nat) : streamBits stream a 0 = 0 :=
  BitVec.eq_of_getLsbD_eq fun t _ => by simp

/-- Two adjoining runs put together. -/
theorem streamBits_or_shiftLeft (stream a n m : Nat) :
    streamBits stream a n ||| (streamBits stream (a + n) m <<< n) = streamBits stream a (n + m) := by
  refine BitVec.eq_of_getLsbD_eq fun t ht => ?_
  simp only [BitVec.getLsbD_or, BitVec.getLsbD_shiftLeft, getLsbD_streamBits, ht]
  rcases Nat.lt_or_ge t n with hn | hn
  · simp [hn, Nat.lt_add_right m hn]
  · obtain ⟨u, rfl⟩ := Nat.exists_eq_add_of_le hn
    simp [Nat.add_assoc, show u < 32 by omega]

/-- The upper part of a run. -/
theorem streamBits_shiftRight (stream a d n : Nat) (h : d + n ≤ 32) :
    streamBits stream a (d + n) >>> d = streamBits stream (a + d) n := by
  refine BitVec.eq_of_getLsbD_eq fun t ht => ?_
  simp only [BitVec.getLsbD_ushiftRight, getLsbD_streamBits, ht, Nat.add_assoc, Nat.add_lt_add_iff_left]
  by_cases hn : t < n
  · simp [hn, show d + t < 32 by omega]
  · simp [hn]

/-- The lower part of a run. -/
theorem maskWord_streamBits (stream a : Nat) {b n : Nat} (h : b ≤ n) :
    maskWord b (streamBits stream a n) = streamBits stream a b := by
  refine BitVec.eq_of_getLsbD_eq fun t ht => ?_
  simp only [getLsbD_maskWord, getLsbD_streamBits]
  by_cases hb : t < b
  · simp [hb, Nat.lt_of_lt_of_le hb h]
  · simp [hb]

/-- A run of 32 bits or more is the word at that bit. -/
theorem streamBits_of_le (stream a : Nat) {n : Nat} (h : 32 ≤ n) : streamBits stream a n = toWord (stream >>> a) := by
  refine BitVec.eq_of_getLsbD_eq fun t ht => ?_
  rw [getLsbD_streamBits, toWord, BitVec.getLsbD_ofNat, Nat.testBit_shiftRight,
    decide_eq_true (Nat.lt_of_lt_of_le ht h), Bool.and_true]

/-! ## Streams of fields -/

/-- `n` fields of `w` bits end to end, field 0 lowest. -/
def fieldStream (w : Nat) (f : Nat → Nat) (n : Nat) : Nat := ((List.range n).map fun r => f r <<< (r * w)).sum

theorem fieldStream_succ (w : Nat) (f : Nat → Nat) (n : Nat) :
    fieldStream w f (n + 1) = fieldStream w f n + f n * 2 ^ (n * w) := by
  simp [fieldStream, List.range_succ, Nat.shiftLeft_eq]

theorem fieldStream_lt {w : Nat} {f : Nat → Nat} (hf : ∀ r, f r < 2 ^ w) (n : Nat) :
    fieldStream w f n < 2 ^ (n * w) := by
  induction n with
  | zero => simp [fieldStream]
  | succ n ih =>
    calc fieldStream w f (n + 1) = fieldStream w f n + f n * 2 ^ (n * w) := fieldStream_succ w f n
      _ < (f n + 1) * 2 ^ (n * w) := by rw [Nat.add_mul, Nat.one_mul]; omega
      _ ≤ 2 ^ w * 2 ^ (n * w) := Nat.mul_le_mul_right _ (hf n)
      _ = 2 ^ ((n + 1) * w) := by rw [← Nat.pow_add, Nat.succ_mul, Nat.add_comm]

/-- Field `r` of the stream is `f r`. -/
theorem fieldStream_field {w : Nat} {f : Nat → Nat} (hf : ∀ r, f r < 2 ^ w) {r n : Nat} (hr : r < n) :
    fieldStream w f n / 2 ^ (r * w) % 2 ^ w = f r := by
  induction n with
  | zero => omega
  | succ n ih =>
    rw [fieldStream_succ]
    rcases Nat.lt_succ_iff_lt_or_eq.1 hr with hlt | rfl
    · -- the fields above `r` begin at bit `(r + 1) * w` or later
      obtain ⟨k, rfl⟩ := Nat.exists_eq_add_of_lt hlt
      have hsplit : f (r + k + 1) * 2 ^ ((r + k + 1) * w) = 2 ^ (r * w) * (2 ^ w * (f (r + k + 1) * 2 ^ (k * w))) := by
        ring
      rw [hsplit, Nat.add_mul_div_left _ _ (Nat.two_pow_pos _), Nat.add_mul_mod_self_left, ih hlt]
    · rw [Nat.add_mul_div_right _ _ (Nat.two_pow_pos _), Nat.div_eq_of_lt (fieldStream_lt hf r), Nat.zero_add,
        Nat.mod_eq_of_lt (hf r)]

theorem streamBits_fieldStream {w : Nat} {f : Nat → Nat} (hf : ∀ r, f r < 2 ^ w) {r n : Nat} (hr : r < n) :
    streamBits (fieldStream w f n) (r * w) w = toWord (f r) := by
  rw [streamBits, mask, Nat.and_two_pow_sub_one_eq_mod, Nat.shiftRight_eq_div_pow, fieldStream_field hf hr]

/-! ## The lanes' streams -/

theorem packStream_eq_fieldStream (b : Nat) (v : List Word) (k : Nat) :
    packStream b v k = fieldStream b (fun r => elem v (4 * r + k) &&& mask b) 32 := rfl

theorem unpackStream_eq_fieldStream (b : Nat) (p : List Word) (k : Nat) :
    unpackStream b p k = fieldStream 32 (fun m => elem p (4 * m + k)) b := by
  simp only [unpackStream, fieldStream, Nat.mul_comm]

/-- The masked value `r` of a lane is the field of its position in the lane's stream (R171, R172). -/
theorem maskWord_eq_streamBits (b : Nat) (v : List Word) (k : Nat) {r : Nat} (hr : r < 32) :
    maskWord b (v.getD (4 * r + k) 0) = streamBits (packStream b v k) (r * b) b := by
  have hfits (r : Nat) : elem v (4 * r + k) &&& mask b < 2 ^ b := by
    rw [mask, Nat.and_two_pow_sub_one_eq_mod]
    exact Nat.mod_lt _ (Nat.two_pow_pos b)
  rw [packStream_eq_fieldStream, streamBits_fieldStream hfits hr, maskWord, toWord, BitVec.ofNat_and, elem,
    BitVec.ofNat_toNat, BitVec.setWidth_eq]

/-- Packed word `m` of a lane is the 32 bits of its position in the lane's stream (R191). -/
theorem getD_eq_streamBits (b : Nat) (p : List Word) (k : Nat) {m : Nat} (hm : m < b) :
    p.getD (4 * m + k) 0 = streamBits (unpackStream b p k) (32 * m) 32 := by
  have hfits (m : Nat) : elem p (4 * m + k) < 2 ^ 32 := (p.getD (4 * m + k) 0).isLt
  rw [unpackStream_eq_fieldStream, Nat.mul_comm 32, streamBits_fieldStream hfits hm, elem, toWord, BitVec.ofNat_toNat,
    BitVec.setWidth_eq]

theorem lane_pos {q k : Nat} (hk : k < 4) : lane (4 * q + k) = k ∧ pos (4 * q + k) = q := by
  simp only [lane, pos, Config.lanes]
  omega

theorem packedWord_eq_streamBits (b : Nat) (v : List Word) (q : Nat) {k n : Nat} (hk : k < 4) (hn : 32 ≤ n) :
    packedWord b v (4 * q + k) = streamBits (packStream b v k) (32 * q) n := by
  obtain ⟨hlane, hpos⟩ := lane_pos (q := q) hk
  rw [packedWord, hlane, hpos, streamBits_of_le _ _ hn]

theorem unpackedValue_eq_streamBits (b : Nat) (p : List Word) (r : Nat) {k : Nat} (hk : k < 4) :
    unpackedValue b p (4 * r + k) = streamBits (unpackStream b p k) (r * b) b := by
  obtain ⟨hlane, hpos⟩ := lane_pos (q := r) hk
  rw [unpackedValue, hlane, hpos]
  rfl

/-! ## Registers of four lanes -/

/-- The register whose lane `k` is `f k`. -/
def Lanes.ofFn (f : Nat → Word) : Lanes := ⟨f 0, f 1, f 2, f 3⟩

@[simp] theorem Lanes.map_ofFn (g : Word → Word) (f : Nat → Word) :
    (Lanes.ofFn f).map g = Lanes.ofFn fun k => g (f k) := rfl

@[simp] theorem Lanes.zip_ofFn (g : Word → Word → Word) (f f' : Nat → Word) :
    (Lanes.ofFn f).zip g (Lanes.ofFn f') = Lanes.ofFn fun k => g (f k) (f' k) := rfl

theorem loadLanes_eq_ofFn (ws : List Word) (n : Nat) : loadLanes ws n = Lanes.ofFn fun k => ws.getD (4 * n + k) 0 := rfl

theorem Lanes.ofFn_congr {f f' : Nat → Word} (h : ∀ k, k < 4 → f k = f' k) : Lanes.ofFn f = Lanes.ofFn f' := by
  simp [Lanes.ofFn, h]

/-- A register appended to a buffer of whole registers. -/
theorem map_range_append_words (f : Nat → Word) (q : Nat) :
    (List.range (4 * q)).map f ++ (Lanes.ofFn fun k => f (4 * q + k)).words = (List.range (4 * (q + 1))).map f := by
  simp [Nat.mul_succ, List.range_succ, Lanes.ofFn, Lanes.words]

/-- What holds at the start and is kept by step `n` holds after all steps. -/
theorem foldl_range_induction {σ : Type} {f : σ → Nat → σ} {s : σ} (motive : Nat → σ → Prop) (N : Nat)
    (start : motive 0 s) (step : ∀ n st, n < N → motive n st → motive (n + 1) (f st n)) :
    motive N ((List.range N).foldl f s) := by
  induction N with
  | zero => exact start
  | succ N ih =>
    rw [List.range_succ, List.foldl_append]
    exact step N _ N.lt_succ_self (ih fun n st hn => step n st (Nat.lt_succ_of_lt hn))

/-! ## PACK in lockstep (R175) -/

/-- After `n` values a lane `q` words are flushed, and the accumulator holds the next `off` bits of each lane's
stream. -/
structure PackLanesAt (b : Nat) (v : List Word) (n q : Nat) (st : Datapath × List Word) : Prop where
  bits : n * b = 32 * q + st.1.off
  off_lt : st.1.off < 32
  acc : st.1.acc = Lanes.ofFn fun k => streamBits (packStream b v k) (32 * q) st.1.off
  out : st.2 = (List.range (4 * q)).map (packedWord b v)

/-- What the flush keeps in the accumulator: the bits of the masked values that did not fit it, if there are any. -/
theorem pack_spill_eq {b off q n : Nat} {x : Lanes} {stream : Nat → Nat} (hb : b ≤ 32) (hoff : off < 32)
    (hfull : 32 ≤ off + b) (hbits : n * b = 32 * q + off)
    (hx : x = Lanes.ofFn fun k => streamBits (stream k) (n * b) b) :
    (if 32 < off + b then x.map (· >>> (32 - off)) else ⟨0, 0, 0, 0⟩) =
      Lanes.ofFn fun k => streamBits (stream k) (32 * (q + 1)) (off + b - 32) := by
  split
  · have hsplit : b = (32 - off) + (off + b - 32) := by omega
    have hnext : n * b + (32 - off) = 32 * (q + 1) := by omega
    rw [hx, ← hnext, Lanes.map_ofFn]
    refine Lanes.ofFn_congr fun k _ => ?_
    rw [← streamBits_shiftRight _ _ _ _ (by omega), ← hsplit]
  · rw [show off + b - 32 = 0 by omega]
    simp only [streamBits_zero]
    rfl

/-- One step keeps this for one value more: the words join in the accumulator, and are flushed when they fill it. -/
theorem packLanesStep_at {b : Nat} {v : List Word} {n q : Nat} {st : Datapath × List Word} (hb : b ≤ 32) (hn : n < 32)
    (h : PackLanesAt b v n q st) : ∃ q', PackLanesAt b v (n + 1) q' (packLanesStep b v st n) := by
  obtain ⟨hbits, hoff, hacc, hout⟩ := h
  have hnext : (n + 1) * b = 32 * q + (st.1.off + b) := by rw [Nat.succ_mul, hbits, Nat.add_assoc]
  have hvalue : (loadLanes v n).map (maskWord b) = Lanes.ofFn fun k => streamBits (packStream b v k) (n * b) b :=
    Lanes.ofFn_congr fun k _ => maskWord_eq_streamBits b v k hn
  have hjoin : st.1.acc.zip (· ||| ·) (((loadLanes v n).map (maskWord b)).map (· <<< st.1.off)) =
      Lanes.ofFn fun k => streamBits (packStream b v k) (32 * q) (st.1.off + b) := by
    rw [hvalue, hacc, hbits]
    exact Lanes.ofFn_congr fun k _ => streamBits_or_shiftLeft _ _ _ _
  by_cases hfull : st.1.off + b < 32
  · -- the accumulator is not full
    rw [packLanesStep, if_pos hfull]
    exact ⟨q, hnext, hfull, hjoin, hout⟩
  · -- a word of each lane is flushed
    rw [packLanesStep, if_neg hfull]
    refine ⟨q + 1, show _ = _ + (st.1.off + b - 32) by omega, show st.1.off + b - 32 < 32 by omega,
      pack_spill_eq hb hoff (by omega) hbits hvalue, ?_⟩
    have hwords : (Lanes.ofFn fun k => streamBits (packStream b v k) (32 * q) (st.1.off + b)) =
        Lanes.ofFn fun k => packedWord b v (4 * q + k) :=
      Lanes.ofFn_congr fun k hk => (packedWord_eq_streamBits b v q hk (Nat.le_of_not_lt hfull)).symm
    simp only [hjoin, hwords, hout, map_range_append_words]

/-- Settles O49: after 32 values a lane, `b` words of each are flushed. -/
theorem packDatapathAgreesWithClosedForm : Obligations.PackDatapathAgreesWithClosedForm := by
  intro b v _ hb _
  have hstart : PackLanesAt b v 0 0 (Datapath.start 0, []) := {
    bits := Nat.zero_mul b
    off_lt := Nat.succ_pos 31
    acc := (Lanes.ofFn_congr fun k _ => streamBits_zero _ _).symm
    out := rfl }
  obtain ⟨q, hbits, hoff, -, hout⟩ := foldl_range_induction (fun n st => ∃ q, PackLanesAt b v n q st) Config.laneValues
    ⟨0, hstart⟩ fun n st hn ⟨_, h⟩ => packLanesStep_at hb hn h
  have hq : q = b := by
    have hall : 32 * b = 32 * q + _ := hbits
    omega
  rw [packLanes, hout, hq]
  rfl

/-! ## UNPACK in lockstep (R194) -/

/-- The read cursor stands at bit `n * b` of the lanes' streams. -/
structure CursorAt (b n : Nat) (dp : Datapath) : Prop where
  bits : n * b = 32 * dp.cursorWord + dp.cursorOff
  off_lt : dp.cursorOff < 32

theorem cursorAt_start (b : Nat) (base : Word) : CursorAt b 0 (Datapath.start base) :=
  ⟨Nat.zero_mul b, Nat.succ_pos 31⟩

/-- The current packed register, from the cursor on. -/
theorem loadLanes_shiftRight_eq {b m off : Nat} (p : List Word) (hm : m < b) (hoff : off < 32) :
    (loadLanes p m).map (· >>> off) =
      Lanes.ofFn fun k => streamBits (unpackStream b p k) (32 * m + off) (32 - off) := by
  rw [loadLanes_eq_ofFn, Lanes.map_ofFn]
  refine Lanes.ofFn_congr fun k _ => ?_
  have hsplit : 32 = off + (32 - off) := by omega
  rw [← streamBits_shiftRight _ _ _ _ (by omega), ← hsplit, getD_eq_streamBits b p k hm]

/-- Fields of the current packed register. -/
theorem fields_of_one_word {b n m off : Nat} (p : List Word) (hbits : n * b = 32 * m + off) (hm : m < b)
    (hoff : off < 32) (hin : off + b ≤ 32) :
    ((loadLanes p m).map (· >>> off)).map (maskWord b) = Lanes.ofFn fun k => unpackedValue b p (4 * n + k) := by
  rw [loadLanes_shiftRight_eq p hm hoff, Lanes.map_ofFn]
  refine Lanes.ofFn_congr fun k hk => ?_
  rw [maskWord_streamBits _ _ (by omega), ← hbits, unpackedValue_eq_streamBits b p n hk]

/-- Fields that begin in the current packed register and end in the next one. -/
theorem fields_of_two_words {b n m off : Nat} (p : List Word) (hbits : n * b = 32 * m + off) (hm : m + 1 < b)
    (hoff : off < 32) (hb : b ≤ 32) :
    (((loadLanes p m).map (· >>> off)).zip (· ||| ·) ((loadLanes p (m + 1)).map (· <<< (32 - off)))).map (maskWord b) =
      Lanes.ofFn fun k => unpackedValue b p (4 * n + k) := by
  have hword : 32 * (m + 1) = 32 * m + off + (32 - off) := by omega
  rw [loadLanes_shiftRight_eq (b := b) p (by omega) hoff, loadLanes_eq_ofFn, Lanes.map_ofFn, Lanes.zip_ofFn,
    Lanes.map_ofFn]
  refine Lanes.ofFn_congr fun k hk => ?_
  rw [getD_eq_streamBits b p k hm, hword, streamBits_or_shiftLeft, maskWord_streamBits _ _ (by omega), ← hbits,
    unpackedValue_eq_streamBits b p n hk]

/-- One step reads field `n` of every lane, advances the cursor by `b` bits and leaves the carry. -/
theorem unpackLanesStep_at {b : Nat} {p : List Word} {n : Nat} {dp : Datapath} (hmin : 1 ≤ b) (hb : b ≤ 32)
    (hn : n < 32) (h : CursorAt b n dp) :
    CursorAt b (n + 1) (unpackLanesStep b p dp) ∧
      (unpackLanesStep b p dp).value = (Lanes.ofFn fun k => unpackedValue b p (4 * n + k)) ∧
      (unpackLanesStep b p dp).carry = dp.carry := by
  obtain ⟨hbits, hoff⟩ := h
  have hnext : (n + 1) * b = 32 * dp.cursorWord + dp.cursorOff + b := by rw [Nat.succ_mul, hbits]
  have hend : (n + 1) * b ≤ 32 * b := Nat.mul_le_mul_right b hn
  rw [unpackLanesStep]
  by_cases hin : dp.cursorOff + b ≤ 32
  · have hvalue := fields_of_one_word p hbits (by omega) hoff hin
    rw [if_pos hin]
    split
    · exact ⟨⟨show _ = 32 * (dp.cursorWord + 1) + 0 by omega, Nat.succ_pos 31⟩, hvalue, rfl⟩
    · exact ⟨⟨show _ = 32 * dp.cursorWord + (dp.cursorOff + b) by omega, show dp.cursorOff + b < 32 by omega⟩,
        hvalue, rfl⟩
  · have hvalue := fields_of_two_words p hbits (by omega) hoff hb
    rw [if_neg hin]
    exact ⟨⟨show _ = 32 * (dp.cursorWord + 1) + (b - (32 - dp.cursorOff)) by omega,
      show b - (32 - dp.cursorOff) < 32 by omega⟩, hvalue, rfl⟩

/-- After `n` steps the first `n` fields of every lane are written. -/
structure UnpackLanesAt (b : Nat) (p : List Word) (n : Nat) (st : Datapath × List Word) : Prop where
  cursor : CursorAt b n st.1
  out : st.2 = (List.range (4 * n)).map (unpackedValue b p)

/-- Settles O50: each of the 32 steps writes one field of every lane. -/
theorem unpackDatapathAgreesWithClosedForm : Obligations.UnpackDatapathAgreesWithClosedForm := by
  intro b p hmin hb _
  refine UnpackLanesAt.out (n := Config.laneValues) (foldl_range_induction (UnpackLanesAt b p) _
    ⟨cursorAt_start b 0, rfl⟩ fun n st hn ⟨hcursor, hout⟩ => ?_)
  obtain ⟨hnext, hvalue, -⟩ := unpackLanesStep_at (p := p) hmin hb hn hcursor
  refine ⟨hnext, ?_⟩
  simp only [hvalue, hout, map_range_append_words]

/-! ## UNPACK_DELTA by shift and add (R212 to R214) -/

/-- The base plus the first `n` deltas, modulo 2^32 (R211, R215). -/
def sumBefore (base : Word) (d : List Word) (n : Nat) : Word :=
  toWord (base.toNat + ((d.take n).map BitVec.toNat).sum)

theorem runningSum_eq_sumBefore (base : Word) (d : List Word) (i : Nat) :
    runningSum base d i = sumBefore base d (i + 1) :=
  rfl

theorem sumBefore_zero (base : Word) (d : List Word) : sumBefore base d 0 = base := by
  simp [sumBefore, toWord]

theorem sumBefore_succ (base : Word) {d : List Word} {n : Nat} (h : n < d.length) :
    sumBefore base d (n + 1) = sumBefore base d n + d.getD n 0 := by
  rw [List.getD_eq_getElem _ _ h, sumBefore, sumBefore, List.take_succ_eq_append_getElem h, List.map_append,
    List.sum_append_nat, ← Nat.add_assoc, toWord, BitVec.ofNat_add]
  simp [toWord]

/-- A register's running sums from the carry on: what the 1-lane and the 2-lane shift-and-add sum up (R212, R213). -/
theorem sumLanes_eq (c x0 x1 x2 x3 : Word) :
    sumLanes c ⟨x0, x1, x2, x3⟩ = ⟨c + x0, c + x0 + x1, c + x0 + x1 + x2, c + x0 + x1 + x2 + x3⟩ := by
  have hsums : sumLanes c ⟨x0, x1, x2, x3⟩ =
      ⟨x0 + 0 + 0 + c, x1 + x0 + 0 + c, x2 + x1 + (x0 + 0) + c, x3 + x2 + (x1 + x0) + c⟩ := rfl
  rw [hsums, Lanes.mk.injEq]
  refine ⟨?_, ?_, ?_, ?_⟩ <;> ring

/-- With the sum of the registers before it as the carry, register `n` of the deltas gives the running sums (R212). -/
theorem sumLanes_deltas (base : Word) {d : List Word} {n : Nat} (h : 4 * n + 4 ≤ d.length) :
    sumLanes (sumBefore base d (4 * n)) (Lanes.ofFn fun k => d.getD (4 * n + k) 0) =
      Lanes.ofFn fun k => runningSum base d (4 * n + k) := by
  have hnext (k : Nat) (hk : k < 4) :
      sumBefore base d (4 * n + k + 1) = sumBefore base d (4 * n + k) + d.getD (4 * n + k) 0 :=
    sumBefore_succ base (by omega)
  have hfirst : sumBefore base d (4 * n + 1) = sumBefore base d (4 * n) + d.getD (4 * n) 0 := hnext 0 (by decide)
  rw [Lanes.ofFn, sumLanes_eq, Lanes.ofFn]
  simp only [runningSum_eq_sumBefore, hnext, hfirst, Nat.reduceLT, Nat.add_zero]

/-- After `n` registers the first `4 * n` sums are written, and the carry is the last of them, or the base. -/
structure DeltaLanesAt (b : Nat) (base : Word) (p : List Word) (n : Nat) (st : Datapath × List Word) : Prop where
  cursor : CursorAt b n st.1
  carry : st.1.carry = sumBefore base (unpackBlock b p) (4 * n)
  out : st.2 = (List.range (4 * n)).map (runningSum base (unpackBlock b p))

theorem unpackBlock_getD (b : Nat) (p : List Word) {i : Nat} (h : i < 128) :
    (unpackBlock b p).getD i 0 = unpackedValue b p i := by
  rw [List.getD_eq_getElem _ _ (by simpa using h), getElem_unpackBlock]

/-- Settles O51: each of the 32 steps unpacks one register, adds its values to the carry and passes on the last sum. -/
theorem deltaDatapathAgreesWithClosedForm : Obligations.DeltaDatapathAgreesWithClosedForm := by
  intro b base p hmin hb _
  refine DeltaLanesAt.out (n := Config.laneValues) (foldl_range_induction (DeltaLanesAt b base p) _
    ⟨cursorAt_start b base, (sumBefore_zero base _).symm, rfl⟩ fun n st hn ⟨hcursor, hcarry, hout⟩ => ?_)
  obtain ⟨hnext, hvalue, hkept⟩ := unpackLanesStep_at (p := p) hmin hb hn hcursor
  have hn32 : n < 32 := hn
  have hsums : sumLanes (unpackLanesStep b p st.1).carry (unpackLanesStep b p st.1).value =
      Lanes.ofFn fun k => runningSum base (unpackBlock b p) (4 * n + k) := by
    rw [hkept, hcarry, hvalue, ← sumLanes_deltas base (by rw [length_unpackBlock]; omega)]
    exact congrArg _ (Lanes.ofFn_congr fun k hk => (unpackBlock_getD b p (by omega)).symm)
  refine ⟨⟨hnext.bits, hnext.off_lt⟩, ?_, ?_⟩ <;> simp only [hsums]
  · rfl
  · rw [hout, map_range_append_words]

end Sys2Proof.Machine
end

section
/-! PROOFS. PACK (41_pack.md): the words it writes, in arithmetic and bit by bit; what width 32 and the worked examples
come to; and the source's scalar encoder, which flushes the same words. -/

namespace Sys2Proof.Machine

/-! ## The packed words (R171 to R173) -/

theorem getD_map_range (v : Nat → Word) {i n : Nat} (h : i < n) : ((List.range n).map v).getD i 0 = v i := by
  rw [List.getD_eq_getElem _ _ (by simpa using h), List.getElem_map, List.getElem_range]

/-- The stream the meaning cuts its words from is `S_k` of R171. -/
theorem packStream_eq_canonicalStream (b : Nat) (v : Nat → Word) {k : Nat} (hk : k < 4) :
    packStream b ((List.range 128).map v) k = canonicalStream b v k := by
  rw [canonicalStream, Finset.sum_eq_multiset_sum]
  refine congrArg List.sum (List.map_congr_left fun r hr => ?_)
  have hr32 : r < 32 := List.mem_range.1 hr
  rw [elem, getD_map_range v (by omega), mask, Nat.and_two_pow_sub_one_eq_mod, Nat.shiftLeft_eq]

theorem packedWord_eq_canonicalStream (b : Nat) (v : Nat → Word) (m : Nat) {k : Nat} (hk : k < 4) :
    packedWord b ((List.range 128).map v) (4 * m + k) = BitVec.ofNat 32 (canonicalStream b v k / 2 ^ (32 * m)) := by
  obtain ⟨hlane, hpos⟩ := lane_pos (q := m) hk
  rw [packedWord, hlane, hpos, packStream_eq_canonicalStream b v hk, Nat.shiftRight_eq_div_pow, toWord]

/-- Bit `p` of a lane's stream is bit `p mod b` of the lane's value `p div b`. -/
theorem testBit_packStream {b p : Nat} (v : List Word) (k : Nat) (hmin : 1 ≤ b) (hb : b ≤ 32) (hp : p < b * 32) :
    (packStream b v k).testBit p = (v.getD (4 * (p / b) + k) 0).getLsbD (p % b) := by
  have hbit : p % b < b := Nat.mod_lt p hmin
  have hbit32 : p % b < 32 := Nat.lt_of_lt_of_le hbit hb
  have hvalue : p / b < 32 := Nat.div_lt_of_lt_mul hp
  calc (packStream b v k).testBit p
      = (streamBits (packStream b v k) (p / b * b) b).getLsbD (p % b) := by
        rw [getLsbD_streamBits, Nat.div_add_mod', decide_eq_true hbit, decide_eq_true hbit32, Bool.and_true,
          Bool.true_and]
    _ = (maskWord b (v.getD (4 * (p / b) + k) 0)).getLsbD (p % b) := by rw [maskWord_eq_streamBits b v k hvalue]
    _ = (v.getD (4 * (p / b) + k) 0).getLsbD (p % b) := by rw [getLsbD_maskWord, decide_eq_true hbit, Bool.and_true]

theorem packedWord_eq_of_lane_pos (b : Nat) (v : List Word) (j : Nat) :
    packedWord b v j = toWord (packStream b v (j % 4) >>> (32 * (j / 4))) := rfl

/-- The position in its lane's stream of a bit of a packed word. -/
theorem stream_position_lt {b j n : Nat} (hj : j < 4 * b) (hn : n < 32) : 32 * (j / 4) + n < b * 32 := by
  omega

theorem getLsbD_packedWord {b j n : Nat} (v : List Word) (hmin : 1 ≤ b) (hb : b ≤ 32) (hj : j < 4 * b) (hn : n < 32) :
    (packedWord b v j).getLsbD n =
      (v.getD (4 * ((32 * (j / 4) + n) / b) + j % 4) 0).getLsbD ((32 * (j / 4) + n) % b) := by
  rw [packedWord_eq_of_lane_pos, toWord, BitVec.getLsbD_ofNat, Nat.testBit_shiftRight, decide_eq_true hn, Bool.true_and,
    testBit_packStream v _ hmin hb (stream_position_lt hj hn)]

/-! ## What PACK writes -/

/-- The destination words of a command that computed `f 0`, `f 1`, ... -/
theorem readWord_complete_map_range (s : State) {dst : List Word} {n : Nat} {f : Nat → Word}
    (h : dst = (List.range n).map f) {j : Nat} (hj : j < n) :
    readWord (complete dst s).spm (s.dst.toNat + j) = some (f j) := by
  subst h
  rw [readWord_complete _ _ (by simpa using hj), List.getElem_map, List.getElem_range]

theorem readWord_complete_packBlock (b : Nat) (v : List Word) (s : State) {j : Nat} (h : j < 4 * b) :
    readWord (complete (packBlock b v) s).spm (s.dst.toNat + j) = some (packedWord b v j) :=
  readWord_complete_map_range s rfl h

/-- Settles O29: the meaning's words are those of the canonical streams, and only the destination buffer is written. -/
theorem packWritesTheCanonicalWords : Obligations.PackWritesTheCanonicalWords := by
  intro b s v ha hv
  refine ⟨_, exec_pack_accepted ha hv, rfl, fun k m hk hm => ?_, fun a hout => ?_⟩
  · rw [readWord_complete_packBlock b _ s (by omega), packedWord_eq_canonicalStream b v m hk]
  · exact readByte_writeWords_outside _ _ _ (by simpa [OutsideWords] using hout)

/-- Settles O30: a packed word's bits are the bits of its lane's stream, and those are the values' bits. -/
theorem packedBitsAreValueBits : Obligations.PackedBitsAreValueBits := by
  intro b s v ha hv
  refine ⟨_, exec_pack_accepted ha hv, fun j n hj hn => ?_⟩
  have hvalue : (32 * (j / 4) + n) / b < 32 := Nat.div_lt_of_lt_mul (stream_position_lt hj hn)
  refine ⟨Nat.le_of_lt_succ hvalue, _, readWord_complete_packBlock b _ s hj, ?_⟩
  have hmin : 1 ≤ b := ha.width_min
  have hmax : b ≤ 32 := ha.width_max
  rw [getLsbD_packedWord _ hmin hmax hj hn, getD_map_range v (by omega)]

theorem Accepted.withSpm {i : Instr} {s : State} (h : Accepted i s) (m : Memory) : Accepted i { s with spm := m } :=
  ⟨h.width_min, h.width_max, h.src_len, h.dst_len, h.src_fits, h.dst_fits, h.apart⟩

theorem canonicalStream_congr {b : Nat} {v v' : Nat → Word}
    (h : ∀ i, i < 128 → (v i).toNat % 2 ^ b = (v' i).toNat % 2 ^ b) {k : Nat} (hk : k < 4) :
    canonicalStream b v k = canonicalStream b v' k := by
  refine Finset.sum_congr rfl fun r hr => ?_
  have hr32 : r < 32 := Finset.mem_range.1 hr
  rw [h _ (by omega)]

/-- Settles O31: the canonical streams depend on the values modulo 2^b alone. -/
theorem packDropsHighBits : Obligations.PackDropsHighBits := by
  intro b s m v v' ha hv hv' hmod
  obtain ⟨t, hexec, ht, hwords, -⟩ := packWritesTheCanonicalWords b s v ha hv
  obtain ⟨t', hexec', ht', hwords', -⟩ := packWritesTheCanonicalWords b _ v' (ha.withSpm m) hv'
  refine ⟨t, t', hexec, hexec', by rw [ht], by rw [ht'], fun j hj => ?_⟩
  have hk : j % 4 < 4 := Nat.mod_lt j (by decide)
  have hm : j / 4 < b := Nat.div_lt_of_lt_mul hj
  have hword := hwords _ _ hk hm
  have hword' := hwords' _ _ hk hm
  rw [← canonicalStream_congr hmod hk] at hword'
  rw [Nat.div_add_mod] at hword hword'
  exact ⟨_, hword, hword'⟩

/-! ## Width 32 (R177, R197) -/

theorem maskWord_thirtyTwo (x : Word) : maskWord 32 x = x :=
  BitVec.eq_of_getLsbD_eq fun t ht => by rw [getLsbD_maskWord, decide_eq_true ht, Bool.and_true]

theorem packedWord_thirtyTwo (v : List Word) {j : Nat} (h : j < 128) : packedWord 32 v j = v.getD j 0 := by
  have hk : j % 4 < 4 := Nat.mod_lt j (by decide)
  rw [← Nat.div_add_mod j 4, packedWord_eq_streamBits 32 v _ hk (Nat.le_refl 32), Nat.mul_comm 32,
    ← maskWord_eq_streamBits 32 v _ (by omega), maskWord_thirtyTwo]

theorem unpackedValue_thirtyTwo (p : List Word) {i : Nat} (h : i < 128) : unpackedValue 32 p i = p.getD i 0 := by
  have hk : i % 4 < 4 := Nat.mod_lt i (by decide)
  rw [← Nat.div_add_mod i 4, unpackedValue_eq_streamBits 32 p _ hk, Nat.mul_comm _ 32,
    ← getD_eq_streamBits 32 p _ (by omega)]

theorem readWord_complete_unpackBlock (b : Nat) (p : List Word) (s : State) {i : Nat} (h : i < 128) :
    readWord (complete (unpackBlock b p) s).spm (s.dst.toNat + i) = some (unpackedValue b p i) :=
  readWord_complete_map_range s rfl h

/-- Settles O37: at width 32 a field is a whole word, so the streams are the lanes' words as they stand. -/
theorem widthThirtyTwoIsTheIdentity : Obligations.WidthThirtyTwoIsTheIdentity := by
  refine fun s v hv => ⟨fun ha => ⟨_, exec_pack_accepted ha hv, fun j hj => ?_⟩,
    fun ha => ⟨_, exec_unpack_accepted ha hv, fun j hj => ?_⟩⟩
  · rw [readWord_complete_packBlock 32 _ s hj, packedWord_thirtyTwo _ hj, getD_map_range v hj]
  · rw [readWord_complete_unpackBlock 32 _ s hj, unpackedValue_thirtyTwo _ hj, getD_map_range v hj]

/-! ## The scalar encoder (R174, R179) -/

/-- After `n` values of lane `k`, the words flushed are the lane's first packed words, and the accumulator holds the
next `off` bits of its stream. -/
structure ScalarPackAt (b : Nat) (v : List Word) (k n : Nat) (st : ScalarPack) : Prop where
  bits : n * b = 32 * st.out.length + st.off
  off_lt : st.off < 32
  acc : st.acc = streamBits (packStream b v k) (32 * st.out.length) st.off
  out : st.out = (List.range st.out.length).map fun m => packedWord b v (4 * m + k)

/-- One step keeps this for one value more, whether the value leaves room, fills the accumulator or straddles it. -/
theorem scalarPackStep_at {b : Nat} {v : List Word} {k n : Nat} {st : ScalarPack} (hb : b ≤ 32) (hk : k < 4)
    (hn : n < 32) (h : ScalarPackAt b v k n st) :
    ScalarPackAt b v k (n + 1) (scalarPackStep b st (v.getD (4 * n + k) 0)) := by
  obtain ⟨hbits, hoff, hacc, hout⟩ := h
  have hnext : (n + 1) * b = 32 * st.out.length + (st.off + b) := by rw [Nat.succ_mul, hbits, Nat.add_assoc]
  have hvalue := maskWord_eq_streamBits b v k hn
  have hjoin : st.acc ||| (maskWord b (v.getD (4 * n + k) 0) <<< st.off) =
      streamBits (packStream b v k) (32 * st.out.length) (st.off + b) := by
    rw [hvalue, hacc, hbits, streamBits_or_shiftLeft]
  have hflush (hfull : 32 ≤ st.off + b) :
      st.out ++ [streamBits (packStream b v k) (32 * st.out.length) (st.off + b)] =
        (List.range (st.out.length + 1)).map fun m => packedWord b v (4 * m + k) := by
    rw [List.range_succ, List.map_append, ← hout, List.map_singleton, packedWord_eq_streamBits b v _ hk hfull]
  rcases Nat.lt_trichotomy (st.off + b) 32 with hroom | hfill | hover
  · -- the accumulator has room left
    rw [scalarPackStep, if_pos hroom.le, if_neg hroom.ne]
    exact ⟨hnext, hroom, hjoin, hout⟩
  · -- the value ends with the accumulator, which is flushed
    rw [scalarPackStep, if_pos hfill.le, if_pos hfill, hjoin, hflush hfill.ge]
    refine ⟨?_, Nat.succ_pos 31, (streamBits_zero _ _).symm, ?_⟩ <;> simp only [List.length_map, List.length_range]
    omega
  · -- the value's upper bits begin the next word
    have hspill : maskWord b (v.getD (4 * n + k) 0) >>> (32 - st.off) =
        streamBits (packStream b v k) (32 * (st.out.length + 1)) (b - (32 - st.off)) := by
      have hsplit : b = (32 - st.off) + (b - (32 - st.off)) := by omega
      have hword : 32 * (st.out.length + 1) = n * b + (32 - st.off) := by omega
      rw [hvalue, hword, ← streamBits_shiftRight _ _ _ _ (by omega), ← hsplit]
    rw [scalarPackStep, if_neg (by omega), hjoin, hflush hover.le, hspill]
    refine ⟨?_, ?_, ?_, ?_⟩ <;> simp only [List.length_map, List.length_range] <;> omega

theorem scalarPackLane_at {b k : Nat} (v : List Word) (hb : b ≤ 32) (hk : k < 4) :
    ScalarPackAt b v k 32 (scalarPackLane b v k) := by
  rw [scalarPackLane, List.foldl_map]
  exact foldl_range_induction (ScalarPackAt b v k) _
    ⟨Nat.zero_mul b, Nat.succ_pos 31, (streamBits_zero _ _).symm, rfl⟩ fun n st hn h => scalarPackStep_at hb hk hn h

/-- A lane's 32 values are `32 * b` bits, which are `b` whole words (R179). -/
theorem scalarPackLane_ends_full {b k : Nat} (v : List Word) (hb : b ≤ 32) (hk : k < 4) :
    (scalarPackLane b v k).off = 0 ∧ (scalarPackLane b v k).out.length = b := by
  obtain ⟨hbits, hoff, -, -⟩ := scalarPackLane_at v hb hk
  omega

/-- Settles O47: every lane flushes its `b` packed words and nothing is left over. -/
theorem scalarEncoderAgreesWithClosedForm : Obligations.ScalarEncoderAgreesWithClosedForm := by
  intro b v _ hb _
  refine ⟨List.map_congr_left fun j hj => ?_, fun k hk => ?_⟩
  · have hk : lane j < 4 := Nat.mod_lt j (by decide)
    have hj4 : j < 4 * b := List.mem_range.1 hj
    have hm : pos j < b := Nat.div_lt_of_lt_mul hj4
    rw [(scalarPackLane_at v hb hk).out, (scalarPackLane_ends_full v hb hk).2, getD_map_range _ hm]
    exact congrArg (packedWord b v) (Nat.div_add_mod j 4)
  · obtain ⟨hoff, hlen⟩ := scalarPackLane_ends_full v hb hk
    refine ⟨hoff, ?_, hlen⟩
    rw [(scalarPackLane_at v hb hk).acc, hoff, streamBits_zero]

/-! ## The worked examples (R178, R198, R219) -/

theorem packBlock_threes : packBlock 2 ((List.range 128).map fun _ => 3) = (List.range 8).map fun _ => 0xFFFFFFFF := by
  decide +kernel

theorem unpackBlock_packed_threes :
    unpackBlock 2 ((List.range 8).map fun _ => 0xFFFFFFFF) = (List.range 128).map fun _ => 3 := by
  decide +kernel

theorem packBlock_deltas : packBlock 2 ([1, 1, 1, 1] ++ List.replicate 124 0) = [1, 1, 1, 1, 0, 0, 0, 0] := by
  decide +kernel

theorem deltaBlock_packed_deltas :
    deltaBlock 2 10 ((List.range 8).map fun j => if j < 4 then 1 else 0) =
      (List.range 128).map fun i => if i < 4 then BitVec.ofNat 32 (11 + i) else 14 := by
  decide +kernel

/-- Settles O38: an accepted command writes what its compute phase makes of the example's source words. -/
theorem workedExamplesOfTheSource : Obligations.WorkedExamplesOfTheSource := by
  refine ⟨⟨by decide, fun s ha hv => ⟨_, exec_pack_accepted ha hv, fun j hj => ?_⟩⟩,
    ⟨by decide, fun s ha hv => ⟨_, exec_unpack_accepted ha hv, fun i hi => ?_⟩⟩, packBlock_deltas,
    ⟨by decide, fun s ha hbase hv => ⟨_, exec_unpackDelta_accepted ha hv, fun i hi => ?_⟩⟩⟩
  · exact readWord_complete_map_range s packBlock_threes hj
  · exact readWord_complete_map_range s unpackBlock_packed_threes hi
  · rw [hbase]
    exact readWord_complete_map_range s deltaBlock_packed_deltas hi

end Sys2Proof.Machine
end

section
/-! PROOFS. UNPACK (42_unpack.md): the values it writes, in arithmetic and bit by bit; that it and PACK invert each
other, on buffers and through the scratchpad; and the source's scalar decoder, which reads the same values. -/

namespace Sys2Proof.Machine

/-! ## The unpacked values (R191, R192) -/

/-- The stream the meaning cuts its values from is `S_k` of R191. -/
theorem unpackStream_eq_packedStream (b : Nat) (p : Nat → Word) {k : Nat} (hk : k < 4) :
    unpackStream b ((List.range (4 * b)).map p) k = packedStream b p k := by
  rw [packedStream, Finset.sum_eq_multiset_sum]
  refine congrArg List.sum (List.map_congr_left fun m hm => ?_)
  have hmb : m < b := List.mem_range.1 hm
  rw [elem, getD_map_range p (by omega), Nat.shiftLeft_eq]

theorem streamBits_eq_ofNat (stream a n : Nat) : streamBits stream a n = BitVec.ofNat 32 (stream / 2 ^ a % 2 ^ n) := by
  rw [streamBits, toWord, mask, Nat.and_two_pow_sub_one_eq_mod, Nat.shiftRight_eq_div_pow]

theorem maskWord_eq_ofNat (b : Nat) (x : Word) : maskWord b x = BitVec.ofNat 32 (x.toNat % 2 ^ b) := by
  rw [← Nat.and_two_pow_sub_one_eq_mod, BitVec.ofNat_and, BitVec.ofNat_toNat, BitVec.setWidth_eq]
  rfl

theorem toNat_unpackedValue_lt (b : Nat) (p : List Word) (i : Nat) : (unpackedValue b p i).toNat < 2 ^ b := by
  rw [unpackedValue, toWord, BitVec.toNat_ofNat, mask, Nat.and_two_pow_sub_one_eq_mod]
  exact (Nat.mod_le _ _).trans_lt (Nat.mod_lt _ (Nat.two_pow_pos b))

/-- Bit `q` of a lane's stream is bit `q mod 32` of the lane's packed word `q div 32`. -/
theorem testBit_unpackStream {b q : Nat} (p : List Word) (k : Nat) (hq : q < 32 * b) :
    (unpackStream b p k).testBit q = (p.getD (4 * (q / 32) + k) 0).getLsbD (q % 32) := by
  have hbit : q % 32 < 32 := Nat.mod_lt q (by decide)
  rw [getD_eq_streamBits b p k (Nat.div_lt_of_lt_mul hq), getLsbD_streamBits, Nat.div_add_mod, decide_eq_true hbit,
    Bool.and_true, Bool.true_and]

/-- The position in its lane's stream of a bit of a field. -/
theorem field_position_lt {b r n : Nat} (hr : r < 32) (hn : n < b) : r * b + n < 32 * b := by
  have hend : (r + 1) * b ≤ 32 * b := Nat.mul_le_mul_right b hr
  rw [Nat.succ_mul] at hend
  omega

theorem unpackedValue_eq_packedStream (b : Nat) (p : Nat → Word) (r : Nat) {k : Nat} (hk : k < 4) :
    unpackedValue b ((List.range (4 * b)).map p) (4 * r + k) =
      BitVec.ofNat 32 (packedStream b p k / 2 ^ (r * b) % 2 ^ b) := by
  rw [unpackedValue_eq_streamBits b _ r hk, streamBits_eq_ofNat, unpackStream_eq_packedStream b p hk]

/-- Bit `n` of a lane's value `r` is that bit of the lane's stream, or 0 past the width. -/
theorem getLsbD_unpackedValue {b r k n : Nat} (p : Nat → Word) (hr : r < 32) (hk : k < 4) (hn : n < 32) :
    (unpackedValue b ((List.range (4 * b)).map p) (4 * r + k)).getLsbD n =
      (decide (n < b) && (p (4 * ((r * b + n) / 32) + k)).getLsbD ((r * b + n) % 32)) := by
  rw [unpackedValue_eq_streamBits b _ r hk, getLsbD_streamBits, decide_eq_true hn, Bool.true_and, Bool.and_comm]
  by_cases hnb : n < b
  · have hq := field_position_lt hr hnb
    rw [testBit_unpackStream _ k hq, getD_map_range p (by omega)]
  · simp [hnb]

/-- Settles O32: the meaning's values are the fields of the packed streams, whose bits are those of the packed words,
and only the destination buffer is written. -/
theorem unpackWritesTheFields : Obligations.UnpackWritesTheFields := by
  intro b s p ha hp
  refine ⟨_, exec_unpack_accepted ha hp, rfl, fun r k hr hk => ?_, fun a hout => ?_⟩
  · have hword := readWord_complete_unpackBlock b ((List.range (4 * b)).map p) s (i := 4 * r + k) (by omega)
    exact ⟨hword.trans (congrArg some (unpackedValue_eq_packedStream b p r hk)), _, hword,
      fun n hn => getLsbD_unpackedValue p hr hk hn⟩
  · exact readByte_writeWords_outside _ _ _ (by simpa using hout)

/-- Settles O33: a command that ended with code 0 wrote its computed values, and these are masked. -/
theorem unpackedValuesFitTheWidth : Obligations.UnpackedValuesFitTheWidth := by
  refine ⟨fun b s t h herr i hi => ?_, fun _ => rfl, rfl⟩
  rcases exec_cases (.unpack b) s with ⟨e, -, hexec⟩ | ⟨-, f, -, hexec⟩ | ⟨-, src, -, hexec⟩ <;> cases hexec.symm.trans h
  · exact absurd herr (errCode_ne_zero e)
  · exact ⟨_, readWord_complete_unpackBlock b src s hi, toNat_unpackedValue_lt b src i⟩

/-! ## PACK and UNPACK invert each other (R195) -/

theorem packBlock_getD (b : Nat) (v : List Word) {j : Nat} (h : j < 4 * b) :
    (packBlock b v).getD j 0 = packedWord b v j := by
  rw [List.getD_eq_getElem _ _ (by simpa using h), getElem_packBlock]

theorem packStream_lt (b : Nat) (v : List Word) (k : Nat) : packStream b v k < 2 ^ (32 * b) := by
  refine fieldStream_lt (fun r => ?_) 32
  rw [mask, Nat.and_two_pow_sub_one_eq_mod]
  exact Nat.mod_lt _ (Nat.two_pow_pos b)

theorem unpackStream_lt (b : Nat) (p : List Word) (k : Nat) : unpackStream b p k < 2 ^ (32 * b) := by
  rw [unpackStream_eq_fieldStream, Nat.mul_comm]
  exact fieldStream_lt (fun m => (p.getD (4 * m + k) 0).isLt) b

/-- Two streams of at most `n` bits are equal when those bits are. -/
theorem stream_ext {x y n : Nat} (hx : x < 2 ^ n) (hy : y < 2 ^ n) (h : ∀ q, q < n → x.testBit q = y.testBit q) :
    x = y := by
  refine Nat.eq_of_testBit_eq fun q => ?_
  rcases Nat.lt_or_ge q n with hq | hq
  · exact h q hq
  · have hhigh : 2 ^ n ≤ 2 ^ q := Nat.pow_le_pow_right (by decide) hq
    rw [Nat.testBit_lt_two_pow (hx.trans_le hhigh), Nat.testBit_lt_two_pow (hy.trans_le hhigh)]

/-- The words PACK cut a lane's stream into are that stream again. -/
theorem unpackStream_packBlock (b : Nat) (v : List Word) {k : Nat} (hk : k < 4) :
    unpackStream b (packBlock b v) k = packStream b v k := by
  refine stream_ext (unpackStream_lt b _ k) (packStream_lt b v k) fun q hq => ?_
  have hbit : q % 32 < 32 := Nat.mod_lt q (by decide)
  rw [testBit_unpackStream _ k hq, packBlock_getD b v (by omega), packedWord_eq_streamBits b v _ hk le_rfl,
    getLsbD_streamBits, Nat.div_add_mod, decide_eq_true hbit, Bool.and_true, Bool.true_and]

/-- The values UNPACK cut a lane's stream into are that stream again: no bit of it is padding. -/
theorem packStream_unpackBlock {b : Nat} (p : List Word) {k : Nat} (hmin : 1 ≤ b) (hb : b ≤ 32) (hk : k < 4) :
    packStream b (unpackBlock b p) k = unpackStream b p k := by
  refine stream_ext (packStream_lt b _ k) (unpackStream_lt b p k) fun q hq => ?_
  have hbit : q % b < b := Nat.mod_lt q hmin
  have hvalue : q / b < 32 := Nat.div_lt_of_lt_mul (by rwa [Nat.mul_comm])
  rw [testBit_packStream _ k hmin hb (by rwa [Nat.mul_comm]), unpackBlock_getD b p (by omega),
    unpackedValue_eq_streamBits b p _ hk, getLsbD_streamBits, Nat.div_add_mod', decide_eq_true hbit,
    decide_eq_true (hbit.trans_le hb), Bool.and_true, Bool.true_and]

theorem unpackedValue_packBlock (b : Nat) (v : List Word) {i : Nat} (hi : i < 128) :
    unpackedValue b (packBlock b v) i = BitVec.ofNat 32 ((v.getD i 0).toNat % 2 ^ b) := by
  have hk : i % 4 < 4 := Nat.mod_lt i (by decide)
  rw [← Nat.div_add_mod i 4, unpackedValue_eq_streamBits b _ _ hk, unpackStream_packBlock b v hk,
    ← maskWord_eq_streamBits b v _ (by omega), maskWord_eq_ofNat]

theorem packedWord_unpackBlock {b j : Nat} (p : List Word) (hmin : 1 ≤ b) (hb : b ≤ 32) (hj : j < 4 * b) :
    packedWord b (unpackBlock b p) j = p.getD j 0 := by
  have hk : j % 4 < 4 := Nat.mod_lt j (by decide)
  rw [← Nat.div_add_mod j 4, packedWord_eq_streamBits b _ _ hk le_rfl, packStream_unpackBlock p hmin hb hk,
    ← getD_eq_streamBits b p _ (by omega)]

/-- The round trip reduces each value modulo `2^b`. -/
theorem unpackBlock_packBlock (b : Nat) {v : List Word} (hv : v.length = 128) :
    unpackBlock b (packBlock b v) = v.map fun x => BitVec.ofNat 32 (x.toNat % 2 ^ b) := by
  refine List.ext_getElem (by simp [hv]) fun i hi _ => ?_
  rw [length_unpackBlock] at hi
  rw [getElem_unpackBlock, unpackedValue_packBlock b v hi, List.getElem_map, List.getD_eq_getElem]

/-- No packed bit is padding: packing the unpacked values gives the packed words back. -/
theorem packBlock_unpackBlock {b : Nat} {p : List Word} (hmin : 1 ≤ b) (hb : b ≤ 32) (hp : p.length = 4 * b) :
    packBlock b (unpackBlock b p) = p := by
  refine List.ext_getElem (by simp [hp]) fun j hj _ => ?_
  rw [length_packBlock] at hj
  rw [getElem_packBlock, packedWord_unpackBlock p hmin hb hj, List.getD_eq_getElem]

/-- Settles O44: each of the two cuts a stream and the other joins it again. -/
theorem packAndUnpackAreInverse : Obligations.PackAndUnpackAreInverse := by
  refine fun b hmin hb => ⟨fun v hv => ⟨unpackBlock_packBlock b hv, fun hfits => ?_⟩, fun v v' hv hv' hmod => ?_,
    fun p hp => packBlock_unpackBlock hmin hb hp⟩
  · rw [unpackBlock_packBlock b hv]
    refine (List.map_congr_left fun x hx => ?_).trans v.map_id
    rw [Nat.mod_eq_of_lt (hfits x hx), BitVec.ofNat_toNat, BitVec.setWidth_eq, id]
  · refine List.map_congr_left fun i hi => ?_
    have hi128 : i < 128 := List.mem_range.1 hi
    rw [unpackedValue_packBlock b v hi128, unpackedValue_packBlock b v' hi128, hmod i hi128]

/-- Settles O45: PACK's destination words are the source of UNPACK, whose values are the source values modulo `2^b`. -/
theorem roundTripThroughTheScratchpad : Obligations.RoundTripThroughTheScratchpad := by
  intro b s v ha hv
  refine ⟨_, exec_pack_accepted ha hv, fun d hu => ⟨_, exec_unpack_accepted (p := packedWord b _) hu
    fun j hj => readWord_complete_packBlock b _ s hj, fun i hi => ?_⟩⟩
  refine (readWord_complete_unpackBlock b _ _ hi).trans (congrArg some ?_)
  exact (unpackedValue_packBlock b _ hi).trans (by rw [getD_map_range v hi])

/-! ## The scalar decoder (R193) -/

@[simp] theorem Lanes.get_map (g : Word → Word) (x : Lanes) (k : Nat) : (x.map g).get k = g (x.get k) := by
  unfold Lanes.get
  split <;> rfl

@[simp] theorem Lanes.get_zip (g : Word → Word → Word) (x y : Lanes) (k : Nat) :
    (x.zip g y).get k = g (x.get k) (y.get k) := by
  unfold Lanes.get
  split <;> rfl

theorem Lanes.get_ofFn (f : Nat → Word) {k : Nat} (hk : k < 4) : (Lanes.ofFn f).get k = f k := by
  interval_cases k <;> rfl

/-- The scalar decoder at the datapath's read cursor, with the values extracted so far. -/
def scalarAt (dp : Datapath) (out : List Word) : ScalarUnpack := ⟨dp.cursorWord, dp.cursorOff, out⟩

/-- The scalar decoder is one lane of the datapath: its step reads what the lockstep step reads in that lane, and moves
its cursor alike. -/
theorem scalarUnpackStep_eq (b : Nat) (p : List Word) {k : Nat} (hk : k < 4) (dp : Datapath) (out : List Word) :
    scalarUnpackStep b p k (scalarAt dp out) =
      scalarAt (unpackLanesStep b p dp) (out ++ [(unpackLanesStep b p dp).value.get k]) := by
  have hload (m : Nat) : p.getD (4 * m + k) 0 = (loadLanes p m).get k := by rw [loadLanes_eq_ofFn, Lanes.get_ofFn _ hk]
  simp only [scalarUnpackStep, unpackLanesStep, scalarAt, hload]
  split
  · split <;> simp
  · simp

/-- After `n` steps on lane `k` the scalar decoder stands at the datapath's cursor, and the lane's first `n` fields are
extracted. -/
def ScalarUnpackAt (b : Nat) (p : List Word) (k n : Nat) (st : ScalarUnpack) : Prop :=
  ∃ dp, CursorAt b n dp ∧ st = scalarAt dp ((List.range n).map fun r => unpackedValue b p (4 * r + k))

theorem scalarUnpackStep_at {b : Nat} {p : List Word} {k n : Nat} {st : ScalarUnpack} (hmin : 1 ≤ b) (hb : b ≤ 32)
    (hk : k < 4) (hn : n < 32) (h : ScalarUnpackAt b p k n st) :
    ScalarUnpackAt b p k (n + 1) (scalarUnpackStep b p k st) := by
  obtain ⟨dp, hcursor, rfl⟩ := h
  obtain ⟨hnext, hvalue, -⟩ := unpackLanesStep_at (p := p) hmin hb hn hcursor
  refine ⟨_, hnext, ?_⟩
  rw [scalarUnpackStep_eq b p hk, hvalue, Lanes.get_ofFn _ hk, List.range_succ, List.map_append, List.map_singleton]

theorem scalarUnpackLane_out {b k : Nat} (p : List Word) (hmin : 1 ≤ b) (hb : b ≤ 32) (hk : k < 4) :
    (scalarUnpackLane b p k).out = (List.range 32).map fun r => unpackedValue b p (4 * r + k) := by
  obtain ⟨dp, -, hdp⟩ := foldl_range_induction (ScalarUnpackAt b p k) Config.laneValues ⟨_, cursorAt_start b 0, rfl⟩
    fun n st hn h => scalarUnpackStep_at hmin hb hk hn h
  exact congrArg ScalarUnpack.out hdp

/-- Settles O48: the values the scalar decoder extracts from each lane are those of the closed form. -/
theorem scalarDecoderAgreesWithClosedForm : Obligations.ScalarDecoderAgreesWithClosedForm := by
  intro b p hmin hb _
  refine List.map_congr_left fun i hi => ?_
  have hi128 : i < 128 := List.mem_range.1 hi
  have hr : pos i < 32 := Nat.div_lt_of_lt_mul hi128
  have hk : lane i < 4 := Nat.mod_lt i (by decide)
  rw [scalarUnpackLane_out p hmin hb hk, getD_map_range _ hr]
  exact congrArg (unpackedValue b p) (Nat.div_add_mod i 4)

end Sys2Proof.Machine
end

section
/-! PROOFS. UNPACK_DELTA (43_unpack_delta.md): its outputs in arithmetic and one from the other, what the corner cases
come to, and the running sums of deltas that PACK packed. -/

namespace Sys2Proof.Machine

/-! ## Each output from the one before it (R211, R214, R215) -/

theorem deltaBlock_getD (b : Nat) (base : Word) (p : List Word) {i : Nat} (h : i < 128) :
    (deltaBlock b base p).getD i 0 = runningSum base (unpackBlock b p) i :=
  getD_map_range _ h

theorem runningSum_unpackBlock_eq_add (b : Nat) (base : Word) (p : List Word) {i : Nat} (h : i < 128) :
    runningSum base (unpackBlock b p) i = sumBefore base (unpackBlock b p) i + (unpackBlock b p).getD i 0 :=
  sumBefore_succ base (by rwa [length_unpackBlock])

/-- Settles O36: an output is the sum of one delta more than the output before it, and the sum of none is BASE. -/
theorem runningSumAddsOneDelta : Obligations.RunningSumAddsOneDelta := by
  refine fun b base p => ⟨?_, fun i hi => ?_⟩
  · rw [deltaBlock_getD b base p (by decide), runningSum_unpackBlock_eq_add b base p (by decide), sumBefore_zero]
  · have hnext : i + 1 < 128 := Nat.succ_lt_succ hi
    rw [deltaBlock_getD b base p hnext, deltaBlock_getD b base p (Nat.lt_of_succ_lt hnext),
      runningSum_unpackBlock_eq_add b base p hnext, runningSum_eq_sumBefore]

/-! ## The outputs in arithmetic (R211) -/

/-- The base plus the first `n` of the numbers `f`, reduced modulo 2^32 once (R211). -/
def sumModulo (base : Word) (f : Nat → Nat) (n : Nat) : Word :=
  BitVec.ofNat 32 (base.toNat + ∑ j ∈ Finset.range n, f j)

theorem sumModulo_zero (base : Word) (f : Nat → Nat) : sumModulo base f 0 = base := by
  simp [sumModulo]

theorem sumModulo_succ (base : Word) (f : Nat → Nat) (n : Nat) :
    sumModulo base f (n + 1) = sumModulo base f n + BitVec.ofNat 32 (f n) := by
  rw [sumModulo, Finset.sum_range_succ, ← Nat.add_assoc, BitVec.ofNat_add, sumModulo]

theorem sumModulo_congr (base : Word) {f g : Nat → Nat} {n : Nat} (h : ∀ j, j < n → f j = g j) :
    sumModulo base f n = sumModulo base g n := by
  rw [sumModulo, Finset.sum_congr rfl fun j hj => h j (Finset.mem_range.1 hj), sumModulo]

/-- Adding the deltas as words, each sum wrapping, is adding the numbers they stand for and reducing at the end. -/
theorem sumBefore_eq_sumModulo (base : Word) {d : List Word} {f : Nat → Nat} {n : Nat} (hn : n ≤ d.length)
    (hd : ∀ j, j < n → d.getD j 0 = BitVec.ofNat 32 (f j)) : sumBefore base d n = sumModulo base f n := by
  induction n with
  | zero => rw [sumBefore_zero, sumModulo_zero]
  | succ n ih =>
    rw [sumBefore_succ base hn, sumModulo_succ, ih (Nat.le_of_succ_le hn) fun j hj => hd j (Nat.lt_succ_of_lt hj),
      hd n n.lt_succ_self]

/-- Output `i` is the sum of the numbers `f` when these are what the fields of the packed words hold. -/
theorem runningSum_unpackBlock_eq_sumModulo (b : Nat) (base : Word) {p : List Word} {f : Nat → Nat} {i : Nat}
    (hi : i < 128) (hf : ∀ j, j < 128 → unpackedValue b p j = BitVec.ofNat 32 (f j)) :
    runningSum base (unpackBlock b p) i = sumModulo base f (i + 1) := by
  rw [runningSum_eq_sumBefore]
  refine sumBefore_eq_sumModulo base (by rwa [length_unpackBlock]) fun j hj => ?_
  have hj128 : j < 128 := Nat.lt_of_lt_of_le hj hi
  rw [unpackBlock_getD b p hj128, hf j hj128]

/-- Settles O46: the fields of the packed words hold the deltas modulo `2^b`. -/
theorem deltaDecodeOfPackedDeltas : Obligations.DeltaDecodeOfPackedDeltas := by
  intro b base d _ _ _ i hi
  rw [deltaBlock_getD b base _ hi,
    runningSum_unpackBlock_eq_sumModulo b base hi fun j hj => unpackedValue_packBlock b d hj, sumModulo]

theorem unpackedValue_eq_packedField (b : Nat) (p : Nat → Word) (i : Nat) :
    unpackedValue b ((List.range (4 * b)).map p) i = BitVec.ofNat 32 (packedField b p i) := by
  have hvalue := unpackedValue_eq_packedStream b p (i / 4) (Nat.mod_lt i (by decide))
  rwa [Nat.div_add_mod] at hvalue

/-- What UNPACK_DELTA leaves at its destination. -/
theorem readWord_complete_deltaBlock (b : Nat) (p : Nat → Word) (s : State) {i : Nat} (h : i < 128) :
    readWord (complete (deltaBlock b s.base ((List.range (4 * b)).map p)) s).spm (s.dst.toNat + i) =
      some (sumModulo s.base (packedField b p) (i + 1)) :=
  (readWord_complete_map_range s rfl h).trans <| congrArg some <|
    runningSum_unpackBlock_eq_sumModulo b s.base h fun j _ => unpackedValue_eq_packedField b p j

/-- Settles O34: the meaning's sums are those of the fields, and only the destination buffer is written. -/
theorem unpackDeltaWritesRunningSums : Obligations.UnpackDeltaWritesRunningSums := by
  intro b s p ha hp
  refine ⟨_, exec_unpackDelta_accepted ha hp, rfl, fun i hi => readWord_complete_deltaBlock b p s hi,
    fun a hout => ?_⟩
  exact readByte_writeWords_outside _ _ _ (by simpa using hout)

/-! ## The corner cases (R218) -/

/-- All deltas 0. -/
theorem sumModulo_of_zeros (base : Word) {f : Nat → Nat} {n : Nat} (h : ∀ j, j < n → f j = 0) :
    sumModulo base f n = base := by
  rw [sumModulo, Finset.sum_eq_zero fun j hj => h j (Finset.mem_range.1 hj), Nat.add_zero, BitVec.ofNat_toNat,
    BitVec.setWidth_eq]

/-- All deltas 1 from the greatest base: the first sum wraps to 0. -/
theorem sumModulo_of_ones {f : Nat → Nat} {i : Nat} (h : ∀ j, j < i + 1 → f j = 1) :
    sumModulo 0xFFFFFFFF f (i + 1) = BitVec.ofNat 32 i := by
  have hbase : (0xFFFFFFFF : Word).toNat = 0xFFFFFFFF := rfl
  rw [sumModulo_congr _ h, sumModulo, Finset.sum_const, Finset.card_range, smul_eq_mul, Nat.mul_one, hbase]
  refine BitVec.eq_of_toNat_eq ?_
  simp only [BitVec.toNat_ofNat]
  omega

theorem toNat_sumModulo {base : Word} {f : Nat → Nat} {n : Nat}
    (h : base.toNat + ∑ j ∈ Finset.range n, f j < 2 ^ 32) :
    (sumModulo base f n).toNat = base.toNat + ∑ j ∈ Finset.range n, f j := by
  rw [sumModulo, BitVec.toNat_ofNat, Nat.mod_eq_of_lt h]

/-- Up to a sum that does not wrap, the sums do not decrease. -/
theorem sumModulo_mono {base : Word} {f : Nat → Nat} {m n l : Nat} (hmn : m ≤ n) (hnl : n ≤ l)
    (h : base.toNat + ∑ j ∈ Finset.range l, f j < 2 ^ 32) :
    (sumModulo base f m).toNat ≤ (sumModulo base f n).toNat := by
  have hle {m n : Nat} (hmn : m ≤ n) :
      base.toNat + ∑ j ∈ Finset.range m, f j ≤ base.toNat + ∑ j ∈ Finset.range n, f j :=
    Nat.add_le_add_left (Finset.sum_le_sum_of_subset (Finset.range_mono hmn)) _
  rw [toNat_sumModulo ((hle (hmn.trans hnl)).trans_lt h), toNat_sumModulo ((hle hnl).trans_lt h)]
  exact hle hmn

theorem packedField_lt (b : Nat) (p : Nat → Word) (i : Nat) : packedField b p i < 2 ^ b :=
  Nat.mod_lt _ (Nat.two_pow_pos b)

/-- At width 32 a field is a whole packed word. -/
theorem packedField_thirtyTwo (p : Nat → Word) {i : Nat} (h : i < 128) : packedField 32 p i = (p i).toNat := by
  have hword : p i = BitVec.ofNat 32 (packedField 32 p i) := by
    rw [← unpackedValue_eq_packedField, unpackedValue_thirtyTwo _ h, getD_map_range p h]
  rw [hword, BitVec.toNat_ofNat, Nat.mod_eq_of_lt (packedField_lt 32 p i)]

/-- Settles O35: each corner case is a fact about the sums that the command writes. -/
theorem deltaCornerCases : Obligations.DeltaCornerCases := by
  intro b s p ha hp
  obtain ⟨t, hexec, -, hsums, -⟩ := unpackDeltaWritesRunningSums b s p ha hp
  refine ⟨t, hexec, fun hzero i hi => ?_, fun hb i hi => ?_, fun hbase hone i hi => ?_, hsums 127 (by decide),
    fun hfits i j hij hj x y hx hy => ?_⟩
  · exact (hsums i hi).trans (congrArg some (sumModulo_of_zeros s.base fun n hn => hzero n (Nat.lt_of_lt_of_le hn hi)))
  · subst hb
    exact ⟨packedField_thirtyTwo p hi, (hsums i hi).trans (congrArg some (sumModulo_congr s.base fun n hn =>
      packedField_thirtyTwo p (Nat.lt_of_lt_of_le hn hi)))⟩
  · refine (hsums i hi).trans (congrArg some ?_)
    rw [hbase]
    exact sumModulo_of_ones fun n hn => hone n (Nat.lt_of_lt_of_le hn hi)
  · cases hx.symm.trans (hsums i (Nat.lt_of_le_of_lt hij hj))
    cases hy.symm.trans (hsums j hj)
    exact sumModulo_mono (Nat.succ_le_succ hij) hj hfits

end Sys2Proof.Machine
end

section
/-! PROOFS. Exceptions and power (60_exceptions.md): the idle machine. -/

namespace Sys2Proof.Machine

/-- The step when no event waits: beside `step_withPending_cons`, the other case of a step. -/
@[simp] theorem step_withPending_nil (s : State) : step (s.withPending []) = .next (s.withPending []) := rfl

/-- Settles O9: a state with no event waiting is one whose list was set to `[]`. -/
theorem idleMachineKeepsEverything : Obligations.IdleMachineKeepsEverything := by
  intro s hnil
  rw [s.eq_withPending_of_pending [] hnil, step_withPending_nil]

end Sys2Proof.Machine
end

section
/-! PROOFS. Reset (70_reset_and_hazards.md): what the reset input leaves. -/

namespace Sys2Proof.Machine

/-- The reset input between transactions (R260). -/
@[simp] theorem perform_reset (s : State) : perform s .reset = .next (resetInput s) := rfl

/-- The reset input during a command (R261). -/
@[simp] theorem perform_resetDuringCommand (s : State) (v : Word) :
    perform s (.resetDuringCommand v) = .next (resetInput s) := rfl

/-- The state the reset input leaves, field by field: the values of R260 and the host's two lists (log entry 1). -/
theorem resetInput_withPending (s : State) (rest : List HostEvent) :
    resetInput (s.withPending rest) =
      { cmd := 0, err := 0, src := 0, srcLen := 0, dst := 0, dstLen := 0, base := 0, spm := [],
        pending := rest, responses := s.responses } := rfl

/-- Settles O20: both events are performed as the reset input. -/
theorem resetInputGivesTheResetState : Obligations.ResetInputGivesTheResetState := by
  intro s rest v
  constructor
  · rw [step_withPending_cons, perform_reset, resetInput_withPending]
  · rw [step_withPending_cons, step_withPending_cons, perform_resetDuringCommand, perform_reset]

end Sys2Proof.Machine
end
